-- ==== Sys2Proof/Word.lean ====
section
/-! DEFINITION. Words, bytes and register addresses (spec 00_scope R5, R12; 10_state R21, R22).
XLEN is 16: a register, a memory word, an address and an instruction are all `Word`s. -/

namespace Sys2Proof

/-- A 16-bit word: register contents, memory word, address or instruction (R5 XLEN, R12). -/
abbrev Word := BitVec 16

/-- Eight bits: a character of the I/O port (R5 CHAR_BITS, R10) and half a memory word. -/
abbrev Byte := BitVec 8

/-- The address of one of the eight general registers R0 to R7; only 0 to 7 exist (R21, R22). -/
abbrev RegAddr := Fin 8

/-- A trap vector, an unsigned index 0 to 255 (R74). -/
abbrev TrapVector := BitVec 8

end Sys2Proof
end

