-- ==== Sys2Proof/Config.lean ====
section
/-! DEFINITION. The parameters of the block (spec 00_scope R5) and the one free value of the model.
The spec's fixed quantities are in the types of Word.lean; its five parameters are the fields of `Config`,
which stands in `State` as plain data that no step writes, so that a statement over every state is a
statement over every value of the parameters (notes/assumptions/1.md). -/

namespace Sys2Proof

/-- The four routines the block itself serves for TRAP (R170, R171). -/
inductive Builtin where
  /-- Character-in, GETC (R173). -/
  | charIn
  /-- Character-out, OUT (R174). -/
  | charOut
  /-- String-out, PUTS (R175). -/
  | stringOut
  /-- Halt, HALT (R176). -/
  | haltMachine
  deriving DecidableEq, Repr

/-- GETC_EOF_POLICY: what character-in does when the I/O port signals end of input (R5, R173, decision D13). -/
inductive EofPolicy where
  /-- The step does not complete; the value the spec recommends. -/
  | stuck
  /-- R0 takes x0000 by an ordinary register write and the program goes on. -/
  | zero
  /-- The step behaves as HALT. -/
  | halt
  deriving DecidableEq, Repr

/-- The parameters of R5, each with the default the spec gives it. -/
structure Config where
  /-- MEM_SIZE: words in the backing store; addresses 0 to MEM_SIZE - 1 are in bounds (R52). -/
  memSize : Nat := 65536
  /-- RESET_PC: the PC after reset when the host names no start address (R35, R221). -/
  resetPc : Word := 0x3000#16
  /-- TRAP_TABLE_BASE: the address of entry 0 of the trap vector table (R56). -/
  trapTableBase : Word := 0x0000#16
  /-- BUILTIN_VECTORS: the vectors the block serves itself, each with its routine (R171; notes/assumptions/4.md). -/
  builtins : List (TrapVector × Builtin) :=
    [(0x20#8, .charIn), (0x21#8, .charOut), (0x22#8, .stringOut), (0x25#8, .haltMachine)]
  /-- GETC_EOF_POLICY (R173). -/
  eofPolicy : EofPolicy := .stuck
  deriving DecidableEq, Repr

/-- Every parameter at the default of R5. -/
def Config.default : Config := {}

/-- The parameters are values R5 allows: MEM_SIZE is 1 to 65536, and no built-in vector is listed twice. -/
abbrev Config.wf (c : Config) : Prop :=
  1 ≤ c.memSize ∧ c.memSize ≤ 65536 ∧ (c.builtins.map Prod.fst).Nodup

/-- FREE VALUE. The characters that reach the I/O port and that the state does not list: the n-th of them.
Nothing constrains it (R10, R121, R173; notes/assumptions/5.md). -/
opaque Config.freeInputChar : Nat → Byte

end Sys2Proof
end

