-- ==== Sys2Proof/Machine/State.lean ====
section
/-! DEFINITION. The state of the machine as plain data (spec 10_state R20 to R37, 20_memory R50 to R58), the ways a
step can stop (60_exceptions R190 to R193, 93 U6 to U8) and the state after reset (R35, R220). -/

namespace Sys2Proof.Machine

/-- The condition codes: exactly one of negative, zero and positive at every moment (R27). -/
inductive Cond where
  /-- N. -/
  | n
  /-- Z. -/
  | z
  /-- P. -/
  | p
  deriving DecidableEq, Repr

/-- What the I/O port answers to `io_read_char` once the listed answers are used up (R10). -/
inductive PortTail where
  /-- Further characters come, and the state does not say which: each is a free value (notes/assumptions/5.md). -/
  | unlisted
  /-- The port signals end of input, and does so each time (R10 `none`). -/
  | endOfInput
  /-- The port never answers (93 U7). -/
  | silent
  deriving DecidableEq, Repr

/-- The input side of the I/O port, as the sequence of answers it gives (R10, R121). -/
structure InPort where
  /-- The answers that come next, oldest first: a character, or none for end of input. -/
  queued : List (Option Byte)
  /-- What comes after them. -/
  tail : PortTail
  /-- How many free characters have been taken. -/
  taken : Nat
  deriving DecidableEq, Repr

/-- One output transaction on the I/O port (R10). -/
inductive PortWrite where
  /-- `io_write_char(c)`. -/
  | char (c : Byte)
  /-- `io_write_string(cs)`. -/
  | string (cs : List Byte)
  deriving DecidableEq, Repr

/-- Memory as a sparse list of bytes: the word at address `a` is the byte at `2 * a` (bits 7:0) and the byte at
`2 * a + 1` (bits 15:8), and a byte that is not listed is zero (R35, R53, R64; notes/assumptions/2.md). -/
abbrev Memory := List Host.Cell

/-- The whole state: R20's registers, PC, condition codes and memory, R33's latch, the parameters of R5, and the two
sides of the I/O port of R10. -/
structure State where
  /-- The general registers R0 to R7 (R21). -/
  regs : Vector Word 8
  /-- The program counter (R25). -/
  pc : Word
  /-- The condition codes (R27). -/
  cc : Cond
  /-- The halted latch (R33). -/
  halted : Bool
  /-- The memory (R32, R50). -/
  mem : Memory
  /-- The parameters (R5); no step writes them. -/
  cfg : Config
  /-- What the I/O port will answer (R10). -/
  inPort : InPort
  /-- What the block has emitted on the I/O port, oldest first (R10; notes/assumptions/3.md). -/
  output : List PortWrite
  deriving DecidableEq, Repr

/-- Why a step gives no next state. The first three are the closed failure set of R190: the step ends with `failed`
and changes nothing (R115). The last three are the steps that never end (R230): the machine is stuck. -/
inductive Fault where
  /-- Raised by the two illegal rows (R178, R179, R191). Safe: the spec defines the failure. -/
  | illegalOpcode
  /-- Raised by constructing a register address from a number above 7; no instruction can (R22, R193). Safe. -/
  | invalidRegisterAddress (value : Nat)
  /-- Raised by a fetch, read or write at an address that is not below MEM_SIZE (R51, R192). Safe: the spec defines
  the failure. -/
  | memoryAddressOutOfBounds (address : Word)
  /-- Stuck: character-in at end of input with GETC_EOF_POLICY = stuck (R173, U6). Safe: no claim follows. -/
  | stuckEndOfInput
  /-- Stuck: character-in while the port never answers (R173, U7). Safe: no claim follows. -/
  | stuckNoInput
  /-- Stuck: string-out when no word of a full memory is zero (R175, R230, U8). Safe: no claim follows. -/
  | stuckStringOut
  deriving DecidableEq, Repr

/-- Why an instruction has no meaning. -/
inductive Refusal where
  /-- Raised by an arm of `exec` whose instruction the model does not give a meaning; no arm does. Safe. -/
  | notModelled (mnemonic : String)
  deriving DecidableEq, Repr

/-- The input port of a state that names no input: characters come and nothing says which (R222, R223 d;
notes/assumptions/5.md). -/
def InPort.unnamed : InPort := { queued := [], tail := .unlisted, taken := 0 }

/-- The state after reset under parameters `c`, with the host's start address when it gives one (R35, R220, R221). -/
def State.resetAt (c : Config) (start : Option Word) (port : InPort) : State where
  regs := Vector.replicate 8 0x0000#16
  pc := start.getD c.resetPc
  cc := .z
  halted := false
  mem := []
  cfg := c
  inPort := port
  output := []

/-- The state after reset with every parameter at its default and no start address (R35). -/
def State.reset : State := State.resetAt Config.default none InPort.unnamed

end Sys2Proof.Machine
end

