-- ==== Sys2Proof/Machine/Flags.lean ====
section
/-! DEFINITION. The condition codes: their one computation and their one test (spec 10_state R27 to R29, 42_control
R140). -/

namespace Sys2Proof.Machine

/-- `CC(v)`: N if bit 15 is set, Z if the word is zero, P otherwise (R28). -/
def condOf (v : Word) : Cond := if v.msb then .n else if v = 0x0000#16 then .z else .p

/-- The flag bit n, z or p as 0 or 1 (R27). -/
def Cond.flagN (c : Cond) : Bool := c == .n

/-- The flag bit z (R27). -/
def Cond.flagZ (c : Cond) : Bool := c == .z

/-- The flag bit p (R27). -/
def Cond.flagP (c : Cond) : Bool := c == .p

/-- Whether a branch mask meets the condition codes (R140 `taken`). -/
def branchTaken (n z p : Bool) (c : Cond) : Bool :=
  (n && c.flagN) || (z && c.flagZ) || (p && c.flagP)

end Sys2Proof.Machine
end

