-- ==== Sys2Proof/Machine/Memory.lean ====
section
/-! DEFINITION. Memory as a list of bytes in one canonical form, and the word at an address built from it in one place
(spec 20_memory R50 to R55). The machine has no byte access: only `read` and `write`, whole words, are used above. -/

namespace Sys2Proof.Machine

/-- The byte at a key; an unlisted byte is zero. -/
def Memory.readByte (m : Memory) (k : Nat) : Byte :=
  match m with
  | [] => 0x00#8
  | c :: rest => if c.1 = k then c.2 else Memory.readByte rest k

/-- A cell put before the first cell with a greater key. -/
def Memory.place (m : Memory) (c : Host.Cell) : Memory :=
  match m with
  | [] => [c]
  | d :: rest => if c.1 < d.1 then c :: d :: rest else d :: Memory.place rest c

/-- The byte at a key replaced; writing zero removes the entry. -/
def Memory.writeByte (m : Memory) (k : Nat) (b : Byte) : Memory :=
  let others := m.filter (fun c => c.1 != k)
  if b = 0x00#8 then others else Memory.place others (k, b)

/-- The word at a word address (R50, R53). -/
def Memory.read (m : Memory) (a : Nat) : Word := m.readByte (2 * a + 1) ++ m.readByte (2 * a)

/-- The word at a word address replaced, all 16 bits of it (R51, R55). -/
def Memory.write (m : Memory) (a : Nat) (v : Word) : Memory :=
  (m.writeByte (2 * a) (v.extractLsb' 0 8)).writeByte (2 * a + 1) (v.extractLsb' 8 8)

/-- The canonical form: keys strictly rising and no listed byte equal to what an unlisted byte reads as. -/
abbrev Memory.wf (m : Memory) : Prop :=
  m.Pairwise (fun c d => c.1 < d.1) ∧ ∀ c ∈ m, c.2 ≠ 0x00#8

/-- Every listed byte belongs to a word below `size` (R52). -/
abbrev Memory.within (m : Memory) (size : Nat) : Prop := ∀ c ∈ m, c.1 < 2 * size

end Sys2Proof.Machine
end

