-- ==== Sys2Proof/Machine/Ops.lean ====
section
/-! DEFINITION. The named operations the meanings are written over: the register file, the program counter, the
checked memory port, the I/O port, and the one way control is transferred with a return address (spec 10_state R23 to
R26, 20_memory R51, 40_step_cycle R115 and R116, 44_trap R172 to R176). The machine has no exception entry (60_exceptions
R198): a failing step stops with a `Fault` and its state is the state before it. The one entry the spec has is the
subroutine jump of a table TRAP (R199), `State.callTo`; its return is JMP (R201). -/

namespace Sys2Proof.Machine

/-- What a meaning or a step answers. -/
abbrev Result := Host.Outcome State Fault Refusal

/-- The index of the link register (R5 LINK, R24). -/
def linkReg : RegAddr := 7

/-- A register address from a number: only 0 to 7 succeed (R22). -/
def registerAddress (value : Nat) : Except Fault RegAddr :=
  if h : value < 8 then .ok ⟨value, h⟩ else .error (.invalidRegisterAddress value)

/-- `x[i]` (R13, R23). -/
def State.readReg (s : State) (r : RegAddr) : Word := s.regs.get r

/-- A register set without the condition codes: the host's preset only (R36). -/
def State.setReg (s : State) (r : RegAddr) (v : Word) : State := { s with regs := s.regs.set r.val v r.isLt }

/-- `x[i] <- v`: every register write also sets the condition codes from the value (R13, R23). -/
def State.writeReg (s : State) (r : RegAddr) (v : Word) : State :=
  { s with regs := s.regs.set r.val v r.isLt, cc := condOf v }

/-- The memory replaced. -/
def State.setMem (s : State) (m : Memory) : State := { s with mem := m }

/-- The input side of the I/O port replaced. -/
def State.setPort (s : State) (port : InPort) : State := { s with inPort := port }

/-- The halted latch set or cleared (R33). -/
def State.setHalted (s : State) (h : Bool) : State := { s with halted := h }

/-- The PC set (R25). -/
def State.setPc (s : State) (a : Word) : State := { s with pc := a }

/-- `next_pc`, the address after the instruction, modulo 65536 (R26). -/
def State.nextPc (s : State) : Word := s.pc + 1#16

/-- The commit of an instruction that assigns no target: `pc <- next_pc` (R116). The state still holds `fetch_pc`. -/
def State.retire (s : State) : State := s.setPc s.nextPc

/-- The subroutine jump of JSR, JSRR and a table TRAP: the return address into the link register, which sets the
condition codes, and the PC to the target (R142, R143, R172, R199). -/
def State.callTo (s : State) (target : Word) : State := (s.writeReg linkReg s.nextPc).setPc target

/-- `MemRead(a, 1)` (R51). -/
def State.memRead (s : State) (a : Word) : Except Fault Word :=
  if a.toNat < s.cfg.memSize then .ok (s.mem.read a.toNat) else .error (.memoryAddressOutOfBounds a)

/-- `MemWrite(a, 1, v)` (R51). -/
def State.memWrite (s : State) (a v : Word) : Except Fault State :=
  if a.toNat < s.cfg.memSize then .ok (s.setMem (s.mem.write a.toNat v))
  else .error (.memoryAddressOutOfBounds a)

/-- A failure ends the step where it stands; otherwise the step goes on with the value (R115). -/
def orFail {α : Type} (x : Except Fault α) (k : α → Result) : Result :=
  match x with
  | .ok v => k v
  | .error f => .fault f

/-- What `io_read_char` answers (R10): a character, end of input, or nothing ever (U7). -/
inductive PortAnswer where
  /-- `some(c)`, and the port as it is once the character is taken. -/
  | char (c : Byte) (rest : InPort)
  /-- `none`: end of input, and the port as it is after this answer. -/
  | endOfInput (rest : InPort)
  /-- No answer. -/
  | never
  deriving DecidableEq, Repr

/-- `io_read_char()` (R10). -/
def InPort.readChar (port : InPort) : PortAnswer :=
  match port.queued with
  | some c :: more => .char c { port with queued := more }
  | none :: more => .endOfInput { port with queued := more }
  | [] =>
    match port.tail with
    | .unlisted => .char (Config.freeInputChar port.taken) { port with taken := port.taken + 1 }
    | .endOfInput => .endOfInput port
    | .silent => .never

/-- An output transaction appended to what the block has emitted (R10). -/
def State.emit (s : State) (w : PortWrite) : State := { s with output := s.output ++ [w] }

/-- What the string read of string-out comes to (R175). -/
inductive StringRead where
  /-- A zero word ended the string. -/
  | ends (cs : List Byte)
  /-- A read was out of bounds. -/
  | outOfBounds (a : Word)
  /-- No zero word was met in so many reads. -/
  | unended
  deriving DecidableEq, Repr

/-- A character put before the rest of the string (R175). -/
def StringRead.withFirst (rest : StringRead) (c : Byte) : StringRead :=
  match rest with
  | .ends cs => .ends (c :: cs)
  | .outOfBounds a => .outOfBounds a
  | .unended => .unended

/-- The string at `a`, one character a word in bits 7:0, up to the first zero word, in at most `fuel` reads (R175). -/
def State.readString (s : State) (fuel : Nat) (a : Word) : StringRead :=
  match fuel with
  | 0 => .unended
  | fuel + 1 =>
    match s.memRead a with
    | .error _ => .outOfBounds a
    | .ok v =>
      if v = 0x0000#16 then .ends []
      else (s.readString fuel (a + 1#16)).withFirst (v.extractLsb' 0 8)

/-- The reads after which a string that has not ended never ends: every address has been read (R175, R230). -/
def stringFuel : Nat := 65536

/-- Halt: the latch is set and the PC committed (R176). -/
def State.halt (s : State) : State := s.retire.setHalted true

end Sys2Proof.Machine
end

