-- ==== Sys2Proof/Machine/Operands.lean ====
section
/-! DEFINITION. The addressing modes of spec 43_load_store R157 and the address of a trap vector table entry (R56,
R172). Every sum is modulo 65536 (R57). -/

namespace Sys2Proof.Machine

/-- PC-relative: `next_pc + off` (R140, R142, R150, R157). -/
def State.pcRelative (s : State) (off : Word) : Word := s.nextPc + off

/-- Base and offset: `x[base] + off` (R152, R156, R157). -/
def State.baseOffset (s : State) (base : RegAddr) (off : Word) : Word := s.readReg base + off

/-- Indirect: the pointer held at the PC-relative address; that read may fail (R151, R155, R157). -/
def State.indirect (s : State) (off : Word) : Except Fault Word := s.memRead (s.pcRelative off)

/-- The address of a vector's entry: `TRAP_TABLE_BASE + zext_16(vec)` (R172). -/
def State.trapEntry (s : State) (vec : TrapVector) : Word := s.cfg.trapTableBase + vec.setWidth 16

end Sys2Proof.Machine
end

