-- ==== Sys2Proof/Machine/Control.lean ====
section
/-! DEFINITION. BR, JMP, JSR and JSRR (spec 42_control R140 to R145). None touches memory, none can fail, and no target
is checked against MEM_SIZE: an out-of-bounds target fails at the next fetch (R145). -/

namespace Sys2Proof.Machine

/-- BR: to the PC-relative target when the mask meets the condition codes, else on to the next word (R140). -/
def execBr (n z p : Bool) (off : Word) (s : State) : Result :=
  .next (if branchTaken n z p s.cc then s.setPc (s.pcRelative off) else s.retire)

/-- JMP: to the address in the base register (R141). -/
def execJmp (base : RegAddr) (s : State) : Result := .next (s.setPc (s.readReg base))

/-- JSR: a subroutine jump to the PC-relative target (R142). -/
def execJsr (off : Word) (s : State) : Result := .next (s.callTo (s.pcRelative off))

/-- JSRR: a subroutine jump to the address in the base register, read before the link register is written (R143,
decision D8). -/
def execJsrr (base : RegAddr) (s : State) : Result := .next (s.callTo (s.readReg base))

end Sys2Proof.Machine
end

