-- ==== Sys2Proof/Machine/LoadStore.lean ====
section
/-! DEFINITION. LD, LDI, LDR, LEA, ST, STI and STR (spec 43_load_store R150 to R157). All reads come before the one
write, and the first access out of bounds ends the step (20_memory R62). -/

namespace Sys2Proof.Machine

/-- A load's end: the word at `ea` into the destination, which sets the condition codes (R150 to R152). -/
def loadFrom (s : State) (dr : RegAddr) (ea : Word) : Result :=
  orFail (s.memRead ea) fun v => .next (s.writeReg dr v).retire

/-- A store's end: the source register's word to `ea`; the condition codes stay (R154 to R156). -/
def storeTo (s : State) (sr : RegAddr) (ea : Word) : Result :=
  orFail (s.memWrite ea (s.readReg sr)) fun t => .next t.retire

/-- LD (R150). -/
def execLd (dr : RegAddr) (off : Word) (s : State) : Result := loadFrom s dr (s.pcRelative off)

/-- LDI: the pointer, then the word it points at (R151). -/
def execLdi (dr : RegAddr) (off : Word) (s : State) : Result := orFail (s.indirect off) (loadFrom s dr)

/-- LDR (R152). -/
def execLdr (dr base : RegAddr) (off : Word) (s : State) : Result := loadFrom s dr (s.baseOffset base off)

/-- LEA: the address itself, with no access to memory (R153). -/
def execLea (dr : RegAddr) (off : Word) (s : State) : Result :=
  .next (s.writeReg dr (s.pcRelative off)).retire

/-- ST (R154). -/
def execSt (sr : RegAddr) (off : Word) (s : State) : Result := storeTo s sr (s.pcRelative off)

/-- STI: the pointer, then the store (R155). -/
def execSti (sr : RegAddr) (off : Word) (s : State) : Result := orFail (s.indirect off) (storeTo s sr)

/-- STR (R156). -/
def execStr (sr base : RegAddr) (off : Word) (s : State) : Result := storeTo s sr (s.baseOffset base off)

end Sys2Proof.Machine
end

