-- ==== Sys2Proof/Machine/Operate.lean ====
section
/-! DEFINITION. ADD, AND and NOT (spec 41_operate R130 to R135). None touches memory and none can fail. -/

namespace Sys2Proof.Machine

/-- The operates' one shape: the result into the destination, which sets the condition codes, then the commit. -/
def operate (s : State) (dr : RegAddr) (v : Word) : Result := .next (s.writeReg dr v).retire

/-- ADD, register form: the sum modulo 65536 (R130). -/
def execAddReg (dr sr1 sr2 : RegAddr) (s : State) : Result := operate s dr (s.readReg sr1 + s.readReg sr2)

/-- ADD, immediate form (R131). -/
def execAddImm (dr sr1 : RegAddr) (imm : Word) (s : State) : Result := operate s dr (s.readReg sr1 + imm)

/-- AND, register form: bitwise on all 16 bits (R132). -/
def execAndReg (dr sr1 sr2 : RegAddr) (s : State) : Result := operate s dr (s.readReg sr1 &&& s.readReg sr2)

/-- AND, immediate form (R133). -/
def execAndImm (dr sr1 : RegAddr) (imm : Word) (s : State) : Result := operate s dr (s.readReg sr1 &&& imm)

/-- NOT: the bitwise complement (R134). -/
def execNot (dr sr : RegAddr) (s : State) : Result := operate s dr (~~~(s.readReg sr))

end Sys2Proof.Machine
end

