-- ==== Sys2Proof/Machine/Trap.lean ====
section
/-! DEFINITION. TRAP, the four built-in routines and the two illegal opcodes (spec 44_trap_and_reserved R170 to R179).
Every TRAP word dispatches on its vector against BUILTIN_VECTORS when it executes (R170): with the default parameters
the rows GETC, OUT, PUTS and HALT run their routines and every other vector goes through the table. -/

namespace Sys2Proof.Machine

/-- A table TRAP: the entry is read first, and only then the return address is linked (R172, decision D22). -/
def tableTrap (vec : TrapVector) (s : State) : Result :=
  orFail (s.memRead (s.trapEntry vec)) fun target => .next (s.callTo target)

/-- End of input, the state having taken the answer: the parameter GETC_EOF_POLICY says what happens (R173, decision
D13). -/
def endOfInput (s : State) : Result :=
  match s.cfg.eofPolicy with
  | .stuck => .fault .stuckEndOfInput
  | .zero => .next (s.writeReg 0 0x0000#16).retire
  | .halt => .next s.halt

/-- Character-in: the port's character, zero-extended, into R0, which sets the condition codes (R173). -/
def charIn (s : State) : Result :=
  match s.inPort.readChar with
  | .char c rest => .next ((s.setPort rest).writeReg 0 (c.setWidth 16)).retire
  | .endOfInput rest => endOfInput (s.setPort rest)
  | .never => .fault .stuckNoInput

/-- Character-out: the low byte of R0 (R174). -/
def charOut (s : State) : Result := .next (s.emit (.char ((s.readReg 0).extractLsb' 0 8))).retire

/-- String-out: the whole string is read, then emitted in one transaction (R175, decision D15). -/
def stringOut (s : State) : Result :=
  match s.readString stringFuel (s.readReg 0) with
  | .ends cs => .next (s.emit (.string cs)).retire
  | .outOfBounds a => .fault (.memoryAddressOutOfBounds a)
  | .unended => .fault .stuckStringOut

/-- A built-in routine (R173 to R177). -/
def runBuiltin (b : Builtin) (s : State) : Result :=
  match b with
  | .charIn => charIn s
  | .charOut => charOut s
  | .stringOut => stringOut s
  | .haltMachine => .next s.halt

/-- TRAP dispatch: the routine of a built-in vector, else the table (R170). -/
def dispatchTrap (vec : TrapVector) (s : State) : Result :=
  match s.cfg.builtins.lookup vec with
  | some b => runBuiltin b s
  | none => tableTrap vec s

/-- TRAP with a vector that has no row of its own (R170, R172). -/
def execTrapTable (vec : TrapVector) (s : State) : Result := dispatchTrap vec s

/-- TRAP x20, GETC (R173). -/
def execTrapGetc (s : State) : Result := dispatchTrap 0x20#8 s

/-- TRAP x21, OUT (R174). -/
def execTrapOut (s : State) : Result := dispatchTrap 0x21#8 s

/-- TRAP x22, PUTS (R175). -/
def execTrapPuts (s : State) : Result := dispatchTrap 0x22#8 s

/-- TRAP x25, HALT (R176). -/
def execTrapHalt (s : State) : Result := dispatchTrap 0x25#8 s

/-- The failure of an illegal opcode: nothing changes (R115, R191). -/
def illegalOpcode (_s : State) : Result := .fault .illegalOpcode

/-- The reserved opcode 1101 (R178). -/
def execReserved1101 (s : State) : Result := illegalOpcode s

/-- The unassigned opcode 1000 (R179, decision D3). -/
def execIllegal1000 (s : State) : Result := illegalOpcode s

end Sys2Proof.Machine
end

