-- ==== Sys2Proof/Syntax.lean ====
section
/-! DEFINITION. The instructions: one constructor for each row of spec/opcode_table.json (spec 30_encoding R75, R76).
An instruction holds exactly the fields its encoding defines. Immediates and offsets are held sign-extended to a
full word, as R74 and R76 say; WellFormed.lean states their ranges. The Trap variant of R76 is five constructors
and the Illegal variant two, because the table gives those rows. -/

namespace Sys2Proof

/-- The decoded instruction (R16, R76). -/
inductive Instr where
  /-- BR with its three mask bits (R140). -/
  | br (n z p : Bool) (off : Word)
  /-- ADD, register form (R130). -/
  | addReg (dr sr1 sr2 : RegAddr)
  /-- ADD, immediate form (R131). -/
  | addImm (dr sr1 : RegAddr) (imm : Word)
  /-- LD (R150). -/
  | ld (dr : RegAddr) (off : Word)
  /-- ST (R154). -/
  | st (sr : RegAddr) (off : Word)
  /-- JSR (R142). -/
  | jsr (off : Word)
  /-- JSRR (R143). -/
  | jsrr (base : RegAddr)
  /-- AND, register form (R132). -/
  | andReg (dr sr1 sr2 : RegAddr)
  /-- AND, immediate form (R133). -/
  | andImm (dr sr1 : RegAddr) (imm : Word)
  /-- LDR (R152). -/
  | ldr (dr base : RegAddr) (off : Word)
  /-- STR (R156). -/
  | str (sr base : RegAddr) (off : Word)
  /-- Any word with the unassigned opcode 1000 (R80, R179). -/
  | illegal1000
  /-- NOT (R134). -/
  | notReg (dr sr : RegAddr)
  /-- LDI (R151). -/
  | ldi (dr : RegAddr) (off : Word)
  /-- STI (R155). -/
  | sti (sr : RegAddr) (off : Word)
  /-- JMP (R141). -/
  | jmp (base : RegAddr)
  /-- Any word with the reserved opcode 1101 (R79, R178). -/
  | reserved1101
  /-- LEA (R153). -/
  | lea (dr : RegAddr) (off : Word)
  /-- TRAP with a vector that has no row of its own (R172). -/
  | trapTable (vec : TrapVector)
  /-- TRAP x20 (R173). -/
  | trapGetc
  /-- TRAP x21 (R174). -/
  | trapOut
  /-- TRAP x22 (R175). -/
  | trapPuts
  /-- TRAP x25 (R176). -/
  | trapHalt
  deriving DecidableEq, Repr

end Sys2Proof
end

