-- ==== Sys2Proof/WellFormed.lean ====
section
/-! DEFINITION. Which values of `Instr` are instructions of the machine: every immediate and offset is the sign
extension of a field of its width (spec 00_scope R14, 30_encoding R74, R76), and a TRAP vector that has a row of its
own is not held by the table form (R170). -/

namespace Sys2Proof

/-- `v`, read as two's complement, is in the range of an `n`-bit signed field (R14). -/
def fitsSigned (n : Nat) (v : Word) : Bool :=
  decide (-(2 ^ (n - 1) : Int) ≤ v.toInt) && decide (v.toInt < (2 ^ (n - 1) : Int))

/-- The vectors that have a row of their own in the opcode table (R171). -/
def rowVectors : List TrapVector := [0x20#8, 0x21#8, 0x22#8, 0x25#8]

/-- An instruction some word decodes to. -/
def Instr.wf (i : Instr) : Bool :=
  match i with
  | .br _ _ _ off => fitsSigned 9 off
  | .addReg _ _ _ => true
  | .addImm _ _ imm => fitsSigned 5 imm
  | .ld _ off => fitsSigned 9 off
  | .st _ off => fitsSigned 9 off
  | .jsr off => fitsSigned 11 off
  | .jsrr _ => true
  | .andReg _ _ _ => true
  | .andImm _ _ imm => fitsSigned 5 imm
  | .ldr _ _ off => fitsSigned 6 off
  | .str _ _ off => fitsSigned 6 off
  | .illegal1000 => true
  | .notReg _ _ => true
  | .ldi _ off => fitsSigned 9 off
  | .sti _ off => fitsSigned 9 off
  | .jmp _ => true
  | .reserved1101 => true
  | .lea _ off => fitsSigned 9 off
  | .trapTable vec => !rowVectors.contains vec
  | .trapGetc => true
  | .trapOut => true
  | .trapPuts => true
  | .trapHalt => true

/-- The Illegal variant of R76: the two rows with no canonical encoding (R81). -/
def Instr.isIllegal (i : Instr) : Bool := i == .illegal1000 || i == .reserved1101

end Sys2Proof
end

