-- ==== Sys2Proof/Decode.lean ====
section
/-! DEFINITION. The decoder and, after it, the encoder (spec 30_encoding R71 to R81, R86). The decoder takes one
16-bit word and nothing else, is total and never fails: a word whose opcode has no instruction decodes to the
constructor that names its row, and fails only when it is executed (R77, R79, R80). -/

namespace Sys2Proof

/-- `sext_N`: the one sign extension, used for the widths 5, 6, 9 and 11 (R14, R74). -/
def sext {n : Nat} (v : BitVec n) : Word := v.signExtend 16

/-- A 3-bit field read as a register address; it cannot fail (R22, R72). -/
def regOf (b : BitVec 3) : RegAddr := b.toFin

/-- The 3-bit field of a register address (R72). -/
def regBits (r : RegAddr) : BitVec 3 := BitVec.ofFin r

/-- The 4-bit opcode, bits 15:12 (R71). -/
def opcodeOf (w : Word) : BitVec 4 := w.extractLsb' 12 4

/-- DR of the loads and operates, SR of the stores: bits 11:9 (R72). -/
def regHi (w : Word) : RegAddr := regOf (w.extractLsb' 9 3)

/-- SR1 and BaseR: bits 8:6 (R72). -/
def regMid (w : Word) : RegAddr := regOf (w.extractLsb' 6 3)

/-- SR2: bits 2:0 (R72). -/
def regLo (w : Word) : RegAddr := regOf (w.extractLsb' 0 3)

/-- imm5, sign-extended (R72, R74). -/
def imm5Of (w : Word) : Word := sext (w.extractLsb' 0 5)

/-- off6, sign-extended (R72, R74). -/
def off6Of (w : Word) : Word := sext (w.extractLsb' 0 6)

/-- off9, sign-extended (R72, R74). -/
def off9Of (w : Word) : Word := sext (w.extractLsb' 0 9)

/-- off11, sign-extended (R72, R74). -/
def off11Of (w : Word) : Word := sext (w.extractLsb' 0 11)

/-- The TRAP rows of the opcode table: four vectors have a row of their own, every other vector is the table
form (R170, R171). Which routine a vector runs is decided when it executes. -/
def decodeTrap (v : TrapVector) : Instr :=
  if v = 0x20#8 then .trapGetc
  else if v = 0x21#8 then .trapOut
  else if v = 0x22#8 then .trapPuts
  else if v = 0x25#8 then .trapHalt
  else .trapTable v

/-- `decode`, line for line R77. The last arm is the only opcode left, 1111. -/
def decode (w : Word) : Instr :=
  match (opcodeOf w).toNat with
  | 0b0000 => .br (w.getLsbD 11) (w.getLsbD 10) (w.getLsbD 9) (off9Of w)
  | 0b0001 =>
    if w.getLsbD 5 then .addImm (regHi w) (regMid w) (imm5Of w)
    else .addReg (regHi w) (regMid w) (regLo w)
  | 0b0010 => .ld (regHi w) (off9Of w)
  | 0b0011 => .st (regHi w) (off9Of w)
  | 0b0100 => if w.getLsbD 11 then .jsr (off11Of w) else .jsrr (regMid w)
  | 0b0101 =>
    if w.getLsbD 5 then .andImm (regHi w) (regMid w) (imm5Of w)
    else .andReg (regHi w) (regMid w) (regLo w)
  | 0b0110 => .ldr (regHi w) (regMid w) (off6Of w)
  | 0b0111 => .str (regHi w) (regMid w) (off6Of w)
  | 0b1000 => .illegal1000
  | 0b1001 => .notReg (regHi w) (regMid w)
  | 0b1010 => .ldi (regHi w) (off9Of w)
  | 0b1011 => .sti (regHi w) (off9Of w)
  | 0b1100 => .jmp (regMid w)
  | 0b1101 => .reserved1101
  | 0b1110 => .lea (regHi w) (off9Of w)
  | _ => decodeTrap (w.extractLsb' 0 8)

/-- The instruction read from a row of the opcode table: one word, so at most 16 bits, and every bit above
`nbits` zero (R70). -/
def decodeTableWord (nbits w : Nat) : Option Instr :=
  if nbits ≤ 16 && decide (w < 2 ^ nbits) then some (decode (BitVec.ofNat 16 w)) else none

/-- A TRAP word with its unused bits 11:8 zero (R73, R81). -/
def encodeTrap (v : TrapVector) : Word := 0b1111#4 ++ 0b0000#4 ++ v

/-- `encode` of R81: the opcode, each field at its position, the selector bit of the form and the canonical unused
bits, which are zero but for NOT's 111111. The two illegal rows have no encoding. -/
def encode (i : Instr) : Option Word :=
  match i with
  | .br n z p off =>
    some (0b0000#4 ++ BitVec.ofBool n ++ BitVec.ofBool z ++ BitVec.ofBool p ++ off.extractLsb' 0 9)
  | .addReg dr sr1 sr2 => some (0b0001#4 ++ regBits dr ++ regBits sr1 ++ 0b0#1 ++ 0b00#2 ++ regBits sr2)
  | .addImm dr sr1 imm => some (0b0001#4 ++ regBits dr ++ regBits sr1 ++ 0b1#1 ++ imm.extractLsb' 0 5)
  | .ld dr off => some (0b0010#4 ++ regBits dr ++ off.extractLsb' 0 9)
  | .st sr off => some (0b0011#4 ++ regBits sr ++ off.extractLsb' 0 9)
  | .jsr off => some (0b0100#4 ++ 0b1#1 ++ off.extractLsb' 0 11)
  | .jsrr base => some (0b0100#4 ++ 0b0#1 ++ 0b00#2 ++ regBits base ++ 0b000000#6)
  | .andReg dr sr1 sr2 => some (0b0101#4 ++ regBits dr ++ regBits sr1 ++ 0b0#1 ++ 0b00#2 ++ regBits sr2)
  | .andImm dr sr1 imm => some (0b0101#4 ++ regBits dr ++ regBits sr1 ++ 0b1#1 ++ imm.extractLsb' 0 5)
  | .ldr dr base off => some (0b0110#4 ++ regBits dr ++ regBits base ++ off.extractLsb' 0 6)
  | .str sr base off => some (0b0111#4 ++ regBits sr ++ regBits base ++ off.extractLsb' 0 6)
  | .illegal1000 => none
  | .notReg dr sr => some (0b1001#4 ++ regBits dr ++ regBits sr ++ 0b111111#6)
  | .ldi dr off => some (0b1010#4 ++ regBits dr ++ off.extractLsb' 0 9)
  | .sti sr off => some (0b1011#4 ++ regBits sr ++ off.extractLsb' 0 9)
  | .jmp base => some (0b1100#4 ++ 0b000#3 ++ regBits base ++ 0b000000#6)
  | .reserved1101 => none
  | .lea dr off => some (0b1110#4 ++ regBits dr ++ off.extractLsb' 0 9)
  | .trapTable vec => some (encodeTrap vec)
  | .trapGetc => some (encodeTrap 0x20#8)
  | .trapOut => some (encodeTrap 0x21#8)
  | .trapPuts => some (encodeTrap 0x22#8)
  | .trapHalt => some (encodeTrap 0x25#8)

/-- The bits of a word that the decoder examines; the others are the unused bits of R78. -/
def usedBits (w : Word) : Word :=
  match (opcodeOf w).toNat with
  | 0b0001 => if w.getLsbD 5 then 0xFFFF#16 else 0xFFE7#16
  | 0b0100 => if w.getLsbD 11 then 0xFFFF#16 else 0xF9C0#16
  | 0b0101 => if w.getLsbD 5 then 0xFFFF#16 else 0xFFE7#16
  | 0b1000 => 0xF000#16
  | 0b1001 => 0xFFC0#16
  | 0b1100 => 0xF1C0#16
  | 0b1101 => 0xF000#16
  | 0b1111 => 0xF0FF#16
  | _ => 0xFFFF#16

/-- The values R81 calls canonical for the unused bits: zero, but 111111 for NOT. -/
def canonicalUnused (w : Word) : Word :=
  if opcodeOf w = 0b1001#4 then 0x003F#16 else 0x0000#16

/-- A well-formed word of R81: an opcode other than 1101 and 1000, and the unused bits canonical. -/
def wordWellFormed (w : Word) : Bool :=
  opcodeOf w != 0b1101#4 && opcodeOf w != 0b1000#4 && (w &&& ~~~(usedBits w)) == canonicalUnused w

end Sys2Proof
end

