-- ==== Sys2Proof/Machine/Fetch.lean ====
section
/-! DEFINITION. Fetching and decoding the next instruction, and placing a word where it is fetched (spec 40_step_cycle
R111 to R113). -/

namespace Sys2Proof.Machine

/-- Stages 1 and 2 of a step: the word at the PC, read anew through the memory port, and decoded (R112, R113). -/
def State.fetch (s : State) : Except Fault Instr :=
  match s.memRead s.pc with
  | .ok w => .ok (decode w)
  | .error f => .error f

/-- A word at the PC, and the halted latch clear, so that the next step fetches it (notes/assumptions/6.md). -/
def State.placeAtPc (s : State) (w : Word) : State :=
  (s.setMem (s.mem.write s.pc.toNat w)).setHalted false

end Sys2Proof.Machine
end

