-- ==== Sys2Proof/Machine/Step.lean ====
section
/-! DEFINITION. One step (spec 40_step_cycle R110 to R121). -/

namespace Sys2Proof.Machine

/-- The step of R111: while the halted latch is set nothing happens (R119); otherwise one instruction is fetched,
decoded and executed. -/
def step (s : State) : Host.Outcome State Fault Refusal :=
  if s.halted then .next s else orFail s.fetch fun i => exec i s

/-- The state with an instruction word placed where the next step fetches it. -/
def State.withFetchWord (s : State) (_nbits w : Nat) : State := s.placeAtPc (BitVec.ofNat 16 w)

end Sys2Proof.Machine
end

