-- ==== Sys2Proof/Machine/HostPort.lean ====
section
/-! DEFINITION. What the host may do between steps (spec 00_scope R8, R11; 10_state R36; 70_reset R220 to R223). No step
does any of this: a statement about a run assumes the host makes no move (R231). -/

namespace Sys2Proof.Machine

/-- Reset: every piece of state at its reset value under the parameters the machine has; the only way out of the
halted state. The I/O port is the collaborator's and keeps what it holds (R208, R220, R222). -/
def State.hostReset (s : State) (start : Option Word) : State :=
  { State.resetAt s.cfg start s.inPort with output := s.output }

/-- `load_image`: the words of the image, in order, at in-bounds addresses only (R8 b, R64, R223 a). -/
def State.loadImage (s : State) (image : List (Word × Word)) : Except Fault State :=
  match image with
  | [] => .ok s
  | (a, v) :: rest =>
    match s.memWrite a v with
    | .ok t => t.loadImage rest
    | .error f => .error f

/-- A register preset: the register only, not the condition codes (R36, decision D27). -/
def State.presetReg (s : State) (r : RegAddr) (v : Word) : State := s.setReg r v

/-- A PC preset (R36). -/
def State.presetPc (s : State) (a : Word) : State := s.setPc a

/-- The condition codes a launch state names (R36, decision D27). -/
def State.presetCond (s : State) (c : Cond) : State := { s with cc := c }

/-- The inspection port: a register (R11). -/
def State.inspectReg (s : State) (r : RegAddr) : Word := s.readReg r

/-- The inspection port: the PC (R11). -/
def State.inspectPc (s : State) : Word := s.pc

/-- The inspection port: the condition codes (R11, R29). -/
def State.inspectCond (s : State) : Cond := s.cc

/-- The inspection port: a memory word (R11). DESIGN CHOICE, safe: for an address at or above MEM_SIZE, where R11 gives no
word, it answers the memory's out-of-bounds error and no value (notes/assumptions/21.md). -/
def State.inspectWord (s : State) (a : Word) : Except Fault Word := s.memRead a

end Sys2Proof.Machine
end

