-- ==== Sys2Proof/Machine/Report.lean ====
section
/-! DEFINITION. The step interface: what a step request answers and the codes of its signals (spec 00_scope R7, R15,
60_exceptions R190 to R198). -/

namespace Sys2Proof.Machine

/-- The outcome of a step (R15). -/
inductive StepOutcome where
  /-- The step fully completed and the machine runs on. -/
  | continued
  /-- The machine is halted (R176, R194). -/
  | halted
  /-- The step failed with exactly one reason of the closed set (R190). -/
  | failed (cause : Fault)
  deriving DecidableEq, Repr

/-- Whether a stop is one of the three failures of R190, and not a step that never ends. -/
def Fault.isFailure (f : Fault) : Bool :=
  match f with
  | .illegalOpcode => true
  | .invalidRegisterAddress _ => true
  | .memoryAddressOutOfBounds _ => true
  | .stuckEndOfInput => false
  | .stuckNoInput => false
  | .stuckStringOut => false

/-- The outcome a step's answer is reported as; none where the step never ends (R173, R175, R230). -/
def outcomeOf (r : Result) : Option StepOutcome :=
  match r with
  | .next t => some (if t.halted then .halted else .continued)
  | .fault f => if f.isFailure then some (.failed f) else none
  | .refused _ => none

/-- A step request: the outcome, and the state the host finds after it, which a step that does not complete leaves as
it was (R115, R198). -/
def State.stepRequest (s : State) : Option StepOutcome × State :=
  match step s with
  | .next t => (outcomeOf (.next t), t)
  | .fault f => (outcomeOf (.fault f), s)
  | .refused r => (outcomeOf (.refused r), s)

/-- The 2-bit code of `outcome` (R195). -/
def StepOutcome.code (o : StepOutcome) : BitVec 2 :=
  match o with
  | .continued => 0b00#2
  | .halted => 0b01#2
  | .failed _ => 0b10#2

/-- The 2-bit code of `cause`; it has a meaning only for a failure (R195). -/
def StepOutcome.causeCode (o : StepOutcome) : Option (BitVec 2) :=
  match o with
  | .failed .illegalOpcode => some 0b00#2
  | .failed (.invalidRegisterAddress _) => some 0b01#2
  | .failed (.memoryAddressOutOfBounds _) => some 0b10#2
  | _ => none

/-- The 16 bits of `cause_value`: the address, or the index zero-extended; the spec gives no value for
`IllegalOpcode` (R7, R191, R195, U4). -/
def StepOutcome.causeValue (o : StepOutcome) : Option Word :=
  match o with
  | .failed (.invalidRegisterAddress v) => some (BitVec.ofNat 16 v)
  | .failed (.memoryAddressOutOfBounds a) => some a
  | _ => none

end Sys2Proof.Machine
end

