-- ==== Sys2Proof/Safety.lean ====
section
/-! DEFINITION. The terms the statements are written in: the invariant of the machine, and what an instruction changes
and leaves unchanged. -/

namespace Sys2Proof.Machine

/-- The invariant: the parameters are values R5 allows, the memory is canonical, and it holds no word at or above
MEM_SIZE (R52). -/
abbrev State.Inv (s : State) : Prop := s.cfg.wf ∧ s.mem.wf ∧ s.mem.within s.cfg.memSize

/-- The address is in bounds (R51). -/
abbrev State.inBounds (s : State) (a : Word) : Prop := a.toNat < s.cfg.memSize

/-- The condition codes are those of the value: negative iff its sign bit is set, zero iff it is zero, positive
otherwise (R28). -/
abbrev CondIs (c : Cond) (v : Word) : Prop :=
  (c = .n ↔ v.msb = true) ∧ (c = .z ↔ v = 0#16) ∧ (c = .p ↔ v.msb = false ∧ v ≠ 0#16)

/-- Exactly one register was written, with the value, and the condition codes follow it (R23). -/
abbrev WroteReg (s t : State) (r : RegAddr) (v : Word) : Prop :=
  t.readReg r = v ∧ (∀ q, q ≠ r → t.readReg q = s.readReg q) ∧ CondIs t.cc v

/-- No register and no condition code changed. -/
abbrev KeptRegs (s t : State) : Prop := (∀ q, t.readReg q = s.readReg q) ∧ t.cc = s.cc

/-- No byte of memory changed. -/
abbrev KeptMem (s t : State) : Prop := ∀ k, t.mem.readByte k = s.mem.readByte k

/-- The word at the address holds the value, and no byte outside it changed (R51). -/
abbrev StoredWord (s t : State) (a v : Word) : Prop :=
  t.mem.read a.toNat = v ∧
    ∀ k, k ≠ 2 * a.toNat → k ≠ 2 * a.toNat + 1 → t.mem.readByte k = s.mem.readByte k

/-- Every piece of state has its reset value of R35, the PC being the start address when the host names one. -/
abbrev State.AtResetValues (s : State) (start : Option Word) : Prop :=
  (∀ r, s.readReg r = 0#16) ∧ s.cc = condOf 0#16 ∧ s.halted = false ∧ (∀ a, start = some a → s.pc = a) ∧
    (start = none → s.pc = s.cfg.resetPc) ∧ ∀ a, s.inBounds a → s.memRead a = .ok 0#16

/-- The parameters and the halted latch are as before. -/
abbrev KeptControl (s t : State) : Prop := t.cfg = s.cfg ∧ t.halted = s.halted

/-- Both sides of the I/O port are as before. -/
abbrev KeptPorts (s t : State) : Prop := t.inPort = s.inPort ∧ t.output = s.output

/-- Nothing but general registers, condition codes and PC changed. -/
abbrev KeptRest (s t : State) : Prop := KeptMem s t ∧ KeptControl s t ∧ KeptPorts s t

/-- The vector of a TRAP word (R170); none for another instruction. -/
def trapVectorOf (i : Instr) : Option TrapVector :=
  match i with
  | .trapTable v => some v
  | .trapGetc => some 0x20#8
  | .trapOut => some 0x21#8
  | .trapPuts => some 0x22#8
  | .trapHalt => some 0x25#8
  | _ => none

/-- The routine a TRAP runs under the state's parameters: none for a table TRAP and for any other instruction
(R170, R171). -/
def State.builtinOf (s : State) (i : Instr) : Option Builtin :=
  (trapVectorOf i).bind fun v => s.cfg.builtins.lookup v

/-- The instruction is a TRAP that goes through the table under the state's parameters (R170, R172). -/
def State.isTableTrap (s : State) (i : Instr) : Bool := (trapVectorOf i).isSome && (s.builtinOf i).isNone

/-- The instructions that assign the PC a target: BR, JMP, JSR, JSRR and table TRAP (R116). -/
def State.mayTransfer (s : State) (i : Instr) : Bool :=
  match i with
  | .br _ _ _ _ => true
  | .jmp _ => true
  | .jsr _ => true
  | .jsrr _ => true
  | _ => s.isTableTrap i

/-- The instructions that access memory after their fetch (R50, R192): LD, LDI, LDR, ST, STI, STR, table TRAP and
string-out. -/
def State.accessesMemory (s : State) (i : Instr) : Bool :=
  match i with
  | .ld _ _ => true
  | .ldi _ _ => true
  | .ldr _ _ _ => true
  | .st _ _ => true
  | .sti _ _ => true
  | .str _ _ _ => true
  | _ => s.isTableTrap i || s.builtinOf i == some .stringOut

/-- The instruction stores a word (R154 to R156). -/
def isStore (i : Instr) : Bool :=
  match i with
  | .st _ _ => true
  | .sti _ _ => true
  | .str _ _ _ => true
  | _ => false

/-- The instruction is a BR. -/
def isBranch (i : Instr) : Bool :=
  match i with
  | .br _ _ _ _ => true
  | _ => false

/-- The port's next answer is end of input (R10). -/
def InPort.atEnd (port : InPort) : Bool :=
  match port.readChar with
  | .endOfInput _ => true
  | _ => false

/-- The instruction ends the run in this state: the halt trap, or character-in at end of input when GETC_EOF_POLICY
is `halt` (R173, R176). -/
def State.halts (s : State) (i : Instr) : Bool :=
  s.builtinOf i == some .haltMachine ||
    (s.builtinOf i == some .charIn && s.inPort.atEnd && s.cfg.eofPolicy == .halt)

/-- The register an instruction that completes writes in this state, if it writes one (R23). -/
def State.destination (s : State) (i : Instr) : Option RegAddr :=
  match i with
  | .addReg dr _ _ => some dr
  | .addImm dr _ _ => some dr
  | .andReg dr _ _ => some dr
  | .andImm dr _ _ => some dr
  | .notReg dr _ => some dr
  | .ld dr _ => some dr
  | .ldi dr _ => some dr
  | .ldr dr _ _ => some dr
  | .lea dr _ => some dr
  | .jsr _ => some linkReg
  | .jsrr _ => some linkReg
  | _ =>
    if s.isTableTrap i then some linkReg
    else if s.builtinOf i == some .charIn && !s.halts i then some 0
    else none

/-- A step's answer with its next state changed. -/
def mapNext (f : State → State) (r : Result) : Result :=
  match r with
  | .next t => .next (f t)
  | .fault e => .fault e
  | .refused e => .refused e

/-- The trap vector table placed elsewhere. -/
def State.moveTrapTable (s : State) (base : Word) : State := { s with cfg := { s.cfg with trapTableBase := base } }

/-- The word of a string at a distance from its start, the address modulo 65536 (R57, R175). -/
def State.stringWord (s : State) (a : Word) (k : Nat) : Word := s.mem.read (a + BitVec.ofNat 16 k).toNat

end Sys2Proof.Machine
end

