-- ==== Sys2Proof/Certificates/Slice0/Obligations.lean ====
section
/-! DEFINITION. The statements for the provers. Each says which rule of the spec it formalises; where a rule's words are
the spec's own decision (`[decision: ...]`) or inference (`[derived: ...]`), the statement says so and its basis is
`derived`. A fault carries no state: a step that faults leaves the state it started from (`FailedStepChangesNothing`). -/

open Sys2Proof Sys2Proof.Machine

/-! ## Encoding -/

/-- R14: `sext_N` keeps the low N bits and fills the others with bit N-1. -/
def Obligations.SignExtensionReplicatesSignBit : Prop :=
  ∀ (n : Nat) (v : BitVec n), 1 ≤ n → n ≤ 16 →
    (∀ k, k < n → (sext v).getLsbD k = v.getLsbD k) ∧
      (∀ k, n ≤ k → k < 16 → (sext v).getLsbD k = v.getLsbD (n - 1)) ∧ (sext v).toInt = v.toInt

/-- R77: `decode`, opcode by opcode, with every field read by division and remainder from the word as a number. The
numbers the rule uses are the source's or the spec's decisions D1 and D2 (R72, R75). -/
def Obligations.DecodeFollowsOpcodeMap : Prop :=
  ∀ w : Word,
    let x := w.toNat
    let reg := fun k : Nat => Fin.ofNat 8 (x / 2 ^ k)
    let bit := fun k : Nat => decide (x / 2 ^ k % 2 = 1)
    let low := fun n : Nat => sext (BitVec.ofNat n x)
    (x / 4096 = 0b0000 → decode w = .br (bit 11) (bit 10) (bit 9) (low 9)) ∧
    (x / 4096 = 0b0001 → bit 5 = false → decode w = .addReg (reg 9) (reg 6) (reg 0)) ∧
    (x / 4096 = 0b0001 → bit 5 = true → decode w = .addImm (reg 9) (reg 6) (low 5)) ∧
    (x / 4096 = 0b0010 → decode w = .ld (reg 9) (low 9)) ∧
    (x / 4096 = 0b0011 → decode w = .st (reg 9) (low 9)) ∧
    (x / 4096 = 0b0100 → bit 11 = true → decode w = .jsr (low 11)) ∧
    (x / 4096 = 0b0100 → bit 11 = false → decode w = .jsrr (reg 6)) ∧
    (x / 4096 = 0b0101 → bit 5 = false → decode w = .andReg (reg 9) (reg 6) (reg 0)) ∧
    (x / 4096 = 0b0101 → bit 5 = true → decode w = .andImm (reg 9) (reg 6) (low 5)) ∧
    (x / 4096 = 0b0110 → decode w = .ldr (reg 9) (reg 6) (low 6)) ∧
    (x / 4096 = 0b0111 → decode w = .str (reg 9) (reg 6) (low 6)) ∧
    (x / 4096 = 0b1000 → decode w = .illegal1000) ∧
    (x / 4096 = 0b1001 → decode w = .notReg (reg 9) (reg 6)) ∧
    (x / 4096 = 0b1010 → decode w = .ldi (reg 9) (low 9)) ∧
    (x / 4096 = 0b1011 → decode w = .sti (reg 9) (low 9)) ∧
    (x / 4096 = 0b1100 → decode w = .jmp (reg 6)) ∧
    (x / 4096 = 0b1101 → decode w = .reserved1101) ∧
    (x / 4096 = 0b1110 → decode w = .lea (reg 9) (low 9)) ∧
    (x / 4096 = 0b1111 → trapVectorOf (decode w) = some (BitVec.ofNat 8 x))

/-- R74, R76: what the decoder gives is well-formed for every word: each immediate and offset is the sign extension of
a field of its width, and a TRAP vector with a row of its own is not given in the table form. -/
def Obligations.DecodedInstructionsAreWellFormed : Prop := ∀ w : Word, (decode w).wf = true

/-- R78, by decision D4 of the spec: words that agree on the bits the decoder examines decode to the same
instruction, and those bits are all but the unused ones of R78's list. -/
def Obligations.UnusedBitsAreIgnored : Prop :=
  ∀ w v : Word, w &&& usedBits w = v &&& usedBits w → decode w = decode v

/-- R81, with the canonical unused bits of the spec's decision D5: every well-formed instruction but the two illegal
rows has a word, which is well-formed and decodes to it; every well-formed word is the word of what it decodes to; and
the illegal rows have no word. -/
def Obligations.DecodeAndEncodeAgree : Prop :=
  (∀ i : Instr, i.wf = true → i.isIllegal = false →
      ∃ w, encode i = some w ∧ wordWellFormed w = true ∧ decode w = i) ∧
    (∀ w : Word, wordWellFormed w = true → encode (decode w) = some w) ∧
    (∀ i : Instr, i.isIllegal = true → encode i = none)

/-- Words written out from 30_encoding and 95_test_vectors decode to their instructions: the source's own two, and one
of each family. -/
def Obligations.SampleWordsDecode : Prop :=
  decode 0b0001001000100000#16 = .addImm 1 0 0#16 ∧ decode 0b1111000000100101#16 = .trapHalt ∧
    decode 0b1101111111111111#16 = .reserved1101 ∧ decode 0b1000101010111100#16 = .illegal1000 ∧
    decode 0b0001000001011010#16 = .addReg 0 1 2 ∧ decode 0b0000001111111101#16 = .br false false true 0xFFFD#16 ∧
    decode 0b0111111000100000#16 = .str 7 0 0xFFE0#16 ∧ decode 0b0100110000000000#16 = .jsr 0xFC00#16 ∧
    decode 0b1010001000000111#16 = .ldi 1 7#16 ∧ decode 0b1111101000110000#16 = .trapTable 0x30#8

/-! ## Registers and condition codes -/

/-- R28, R27: of the three flags exactly one is set, and after a value is classified N is its sign bit, Z says that it
is zero and P the rest. -/
def Obligations.ConditionCodesOfEveryValue : Prop :=
  ∀ v : Word,
    CondIs (condOf v) v ∧
      ((condOf v).flagN = v.msb ∧ ((condOf v).flagZ = true ↔ v.toNat = 0) ∧ ((condOf v).flagP = true ↔ 0 < v.toInt)) ∧
      ∀ c : Cond, c.flagN.toNat + c.flagZ.toNat + c.flagP.toNat = 1

/-- R23, R29: a completed instruction that writes a register writes exactly one and leaves the condition codes of its
value; every other completed instruction leaves all registers and the condition codes alone; and no instruction but BR
does anything that depends on the condition codes. The host sees them through the inspection port. That the link writes
of JSR, JSRR and table TRAP and character-in's write of R0 set the condition codes is the spec's own reading, its decision
D7 (90_conflicts C5; notes/assumptions/16.md). The link register is its decision D6, the registers the built-in traps
write or leave its decisions D11 and D12, and what character-in does at end of input its decision D13
(notes/assumptions/16.md, 17.md and 11.md). -/
def Obligations.FlagsFollowRegisterWritesOnly : Prop :=
  (∀ (i : Instr) (s t : State), exec i s = .next t →
      match s.destination i with
      | some r => WroteReg s t r (t.readReg r)
      | none => KeptRegs s t) ∧
    (∀ (i : Instr) (s : State) (c : Cond), isBranch i = false →
      mapNext (fun t => t.presetCond .z) (exec i (s.presetCond c)) = mapNext (fun t => t.presetCond .z) (exec i s)) ∧
    ∀ s : State, s.inspectCond = s.cc

/-! ## Operate -/

/-- R130: ADD, register form. -/
def Obligations.AddRegisterForm : Prop :=
  ∀ dr sr1 sr2 : RegAddr,
    (∀ unused : BitVec 2,
        decode (0b0001#4 ++ regBits dr ++ regBits sr1 ++ 0b0#1 ++ unused ++ regBits sr2) = .addReg dr sr1 sr2) ∧
      ∀ s : State, ∃ t, exec (.addReg dr sr1 sr2) s = .next t ∧
        WroteReg s t dr (BitVec.ofNat 16 ((s.readReg sr1).toNat + (s.readReg sr2).toNat)) ∧
        t.pc = s.pc + 1#16 ∧ KeptRest s t

/-- R131: ADD, immediate form. -/
def Obligations.AddImmediateForm : Prop :=
  ∀ dr sr1 : RegAddr,
    (∀ imm5 : BitVec 5, decode (0b0001#4 ++ regBits dr ++ regBits sr1 ++ 0b1#1 ++ imm5) = .addImm dr sr1 (sext imm5)) ∧
      ∀ (imm : Word) (s : State), ∃ t, exec (.addImm dr sr1 imm) s = .next t ∧
        WroteReg s t dr (BitVec.ofNat 16 ((s.readReg sr1).toNat + imm.toNat)) ∧ t.pc = s.pc + 1#16 ∧ KeptRest s t

/-- R132: AND, register form; its opcode number is the spec's decision D1. -/
def Obligations.AndRegisterForm : Prop :=
  ∀ dr sr1 sr2 : RegAddr,
    (∀ unused : BitVec 2,
        decode (0b0101#4 ++ regBits dr ++ regBits sr1 ++ 0b0#1 ++ unused ++ regBits sr2) = .andReg dr sr1 sr2) ∧
      ∀ s : State, ∃ t, exec (.andReg dr sr1 sr2) s = .next t ∧
        WroteReg s t dr (s.readReg sr1 &&& s.readReg sr2) ∧
        (∀ k, (t.readReg dr).getLsbD k = ((s.readReg sr1).getLsbD k && (s.readReg sr2).getLsbD k)) ∧
        t.pc = s.pc + 1#16 ∧ KeptRest s t

/-- R133: AND, immediate form; the immediate is extended before the AND. -/
def Obligations.AndImmediateForm : Prop :=
  ∀ dr sr1 : RegAddr,
    (∀ imm5 : BitVec 5, decode (0b0101#4 ++ regBits dr ++ regBits sr1 ++ 0b1#1 ++ imm5) = .andImm dr sr1 (sext imm5)) ∧
      ∀ (imm : Word) (s : State), ∃ t, exec (.andImm dr sr1 imm) s = .next t ∧
        WroteReg s t dr (s.readReg sr1 &&& imm) ∧
        (∀ k, (t.readReg dr).getLsbD k = ((s.readReg sr1).getLsbD k && imm.getLsbD k)) ∧
        t.pc = s.pc + 1#16 ∧ KeptRest s t

/-- R134: NOT, whatever its low six bits; its opcode number is the spec's decision D1, and that those bits are ignored
its decision D4. -/
def Obligations.NotComplementsEveryBit : Prop :=
  ∀ dr sr : RegAddr,
    (∀ unused : BitVec 6, decode (0b1001#4 ++ regBits dr ++ regBits sr ++ unused) = .notReg dr sr) ∧
      ∀ s : State, ∃ t, exec (.notReg dr sr) s = .next t ∧
        WroteReg s t dr (~~~(s.readReg sr)) ∧
        (∀ k, k < 16 → (t.readReg dr).getLsbD k = !(s.readReg sr).getLsbD k) ∧
        t.pc = s.pc + 1#16 ∧ KeptRest s t

/-- R135 (b): ADD is addition modulo 65536 whether its operands are read unsigned or as two's complement, and overflow
in either reading is silent. -/
def Obligations.AddWrapsInBothReadings : Prop :=
  ∀ (dr sr1 sr2 : RegAddr) (s : State), ∃ t, exec (.addReg dr sr1 sr2) s = .next t ∧
    (t.readReg dr).toNat = ((s.readReg sr1).toNat + (s.readReg sr2).toNat) % 65536 ∧
    (t.readReg dr).toInt = ((s.readReg sr1).toInt + (s.readReg sr2).toInt).bmod 65536

/-! ## Control transfer -/

/-- R140: BR, for every mask and every state of the condition codes; the opcode number and the order of the mask bits
are the spec's decisions D1 and D2. -/
def Obligations.BranchTakenWhenMaskMeetsFlags : Prop :=
  ∀ n z p : Bool,
    (∀ off9 : BitVec 9, decode (0b0000#4 ++ BitVec.ofBool n ++ BitVec.ofBool z ++ BitVec.ofBool p ++ off9) =
        .br n z p (sext off9)) ∧
      ∀ (off : Word) (s : State), ∃ t, exec (.br n z p off) s = .next t ∧ KeptRegs s t ∧ KeptRest s t ∧
        (((n = true ∧ s.cc = .n) ∨ (z = true ∧ s.cc = .z) ∨ (p = true ∧ s.cc = .p)) → t.pc = s.pc + 1#16 + off) ∧
        (¬ ((n = true ∧ s.cc = .n) ∨ (z = true ∧ s.cc = .z) ∨ (p = true ∧ s.cc = .p)) → t.pc = s.pc + 1#16)

/-- R141: JMP; its opcode number and field position are the spec's decisions D1 and D2. -/
def Obligations.JumpGoesToBaseRegister : Prop :=
  ∀ base : RegAddr,
    (∀ (u : BitVec 3) (v : BitVec 6), decode (0b1100#4 ++ u ++ regBits base ++ v) = .jmp base) ∧
      ∀ s : State, ∃ t, exec (.jmp base) s = .next t ∧ t.pc = s.readReg base ∧ KeptRegs s t ∧ KeptRest s t

/-- R142: JSR; that the link register is R7 is the spec's decision D6, and that its write sets the condition codes its
decision D7 (90_conflicts C5). -/
def Obligations.JsrLinksAndJumps : Prop :=
  (∀ off11 : BitVec 11, decode (0b0100#4 ++ 0b1#1 ++ off11) = .jsr (sext off11)) ∧
    ∀ (off : Word) (s : State), ∃ t, exec (.jsr off) s = .next t ∧
      WroteReg s t 7 (s.pc + 1#16) ∧ t.pc = s.pc + 1#16 + off ∧ KeptRest s t

/-- R143: JSRR; that the base register is read before R7 is written is the spec's decision D8, and
that the link write sets the condition codes its decision D7. -/
def Obligations.JsrrLinksAndJumps : Prop :=
  ∀ base : RegAddr,
    (∀ (u : BitVec 2) (v : BitVec 6), decode (0b0100#4 ++ 0b0#1 ++ u ++ regBits base ++ v) = .jsrr base) ∧
      ∀ s : State, ∃ t, exec (.jsrr base) s = .next t ∧
        WroteReg s t 7 (s.pc + 1#16) ∧ t.pc = s.readReg base ∧ KeptRest s t

/-- R144, R201: JMP R7 takes a JSR, a JSRR or a table TRAP back to the word after it, from any state that still holds
its link. -/
def Obligations.ReturnComesBackAfterCall : Prop :=
  ∀ (i : Instr) (s t u : State), s.destination i = some linkReg → s.mayTransfer i = true → exec i s = .next t →
    u.readReg 7 = t.readReg 7 → ∃ v, exec (.jmp 7) u = .next v ∧ v.pc = s.pc + 1#16 ∧ KeptRegs u v ∧ KeptRest u v

/-- R145 (d), (e): BR, JMP, JSR and JSRR complete in every state and leave memory alone, and a target out of bounds
fails at the next fetch, with that address and the PC equal to it. -/
def Obligations.OutOfBoundsTargetFailsAtNextFetch : Prop :=
  ∀ (i : Instr) (s : State), s.mayTransfer i = true → trapVectorOf i = none →
    ∃ t, exec i s = .next t ∧ KeptMem s t ∧
      (s.halted = false → ¬ s.inBounds t.pc →
        step t = .fault (.memoryAddressOutOfBounds t.pc) ∧ t.stepRequest.2.pc = t.pc)

/-! ## Loads and stores -/

/-- R150: LD. -/
def Obligations.LoadDirect : Prop :=
  ∀ dr : RegAddr,
    (∀ off9 : BitVec 9, decode (0b0010#4 ++ regBits dr ++ off9) = .ld dr (sext off9)) ∧
      ∀ (off : Word) (s : State), let ea := s.pc + 1#16 + off
        (s.inBounds ea → ∃ t, exec (.ld dr off) s = .next t ∧ WroteReg s t dr (s.mem.read ea.toNat) ∧
          t.pc = s.pc + 1#16 ∧ KeptRest s t) ∧
        (¬ s.inBounds ea → exec (.ld dr off) s = .fault (.memoryAddressOutOfBounds ea))

/-- R151: LDI; the pointer's failure comes before the data's. -/
def Obligations.LoadIndirect : Prop :=
  ∀ dr : RegAddr,
    (∀ off9 : BitVec 9, decode (0b1010#4 ++ regBits dr ++ off9) = .ldi dr (sext off9)) ∧
      ∀ (off : Word) (s : State), let ea := s.pc + 1#16 + off
        let ptr := s.mem.read ea.toNat
        (s.inBounds ea → s.inBounds ptr → ∃ t, exec (.ldi dr off) s = .next t ∧
          WroteReg s t dr (s.mem.read ptr.toNat) ∧ t.pc = s.pc + 1#16 ∧ KeptRest s t) ∧
        (¬ s.inBounds ea → exec (.ldi dr off) s = .fault (.memoryAddressOutOfBounds ea)) ∧
        (s.inBounds ea → ¬ s.inBounds ptr → exec (.ldi dr off) s = .fault (.memoryAddressOutOfBounds ptr))

/-- R152: LDR; the bound applies to the sum, and the base register changes only when it is the destination. -/
def Obligations.LoadBaseOffset : Prop :=
  ∀ dr base : RegAddr,
    (∀ off6 : BitVec 6, decode (0b0110#4 ++ regBits dr ++ regBits base ++ off6) = .ldr dr base (sext off6)) ∧
      ∀ (off : Word) (s : State), let ea := s.readReg base + off
        (s.inBounds ea → ∃ t, exec (.ldr dr base off) s = .next t ∧ WroteReg s t dr (s.mem.read ea.toNat) ∧
          t.pc = s.pc + 1#16 ∧ KeptRest s t) ∧
        (¬ s.inBounds ea → exec (.ldr dr base off) s = .fault (.memoryAddressOutOfBounds ea))

/-- R153: LEA; no access to memory and no failure, whatever MEM_SIZE is. -/
def Obligations.LoadEffectiveAddress : Prop :=
  ∀ dr : RegAddr,
    (∀ off9 : BitVec 9, decode (0b1110#4 ++ regBits dr ++ off9) = .lea dr (sext off9)) ∧
      ∀ (off : Word) (s : State), ∃ t, exec (.lea dr off) s = .next t ∧
        WroteReg s t dr (s.pc + 1#16 + off) ∧ t.pc = s.pc + 1#16 ∧ KeptRest s t

/-- R154: ST; no register and no condition code changes. -/
def Obligations.StoreDirect : Prop :=
  ∀ sr : RegAddr,
    (∀ off9 : BitVec 9, decode (0b0011#4 ++ regBits sr ++ off9) = .st sr (sext off9)) ∧
      ∀ (off : Word) (s : State), let ea := s.pc + 1#16 + off
        (s.inBounds ea → ∃ t, exec (.st sr off) s = .next t ∧ StoredWord s t ea (s.readReg sr) ∧
          t.pc = s.pc + 1#16 ∧ KeptRegs s t ∧ KeptControl s t ∧ KeptPorts s t) ∧
        (¬ s.inBounds ea → exec (.st sr off) s = .fault (.memoryAddressOutOfBounds ea))

/-- R155: STI; the pointer's failure comes before the store's. -/
def Obligations.StoreIndirect : Prop :=
  ∀ sr : RegAddr,
    (∀ off9 : BitVec 9, decode (0b1011#4 ++ regBits sr ++ off9) = .sti sr (sext off9)) ∧
      ∀ (off : Word) (s : State), let ea := s.pc + 1#16 + off
        let ptr := s.mem.read ea.toNat
        (s.inBounds ea → s.inBounds ptr → ∃ t, exec (.sti sr off) s = .next t ∧
          StoredWord s t ptr (s.readReg sr) ∧ t.pc = s.pc + 1#16 ∧ KeptRegs s t ∧ KeptControl s t ∧ KeptPorts s t) ∧
        (¬ s.inBounds ea → exec (.sti sr off) s = .fault (.memoryAddressOutOfBounds ea)) ∧
        (s.inBounds ea → ¬ s.inBounds ptr → exec (.sti sr off) s = .fault (.memoryAddressOutOfBounds ptr))

/-- R156: STR; the base register does not change. -/
def Obligations.StoreBaseOffset : Prop :=
  ∀ sr base : RegAddr,
    (∀ off6 : BitVec 6, decode (0b0111#4 ++ regBits sr ++ regBits base ++ off6) = .str sr base (sext off6)) ∧
      ∀ (off : Word) (s : State), let ea := s.readReg base + off
        (s.inBounds ea → ∃ t, exec (.str sr base off) s = .next t ∧ StoredWord s t ea (s.readReg sr) ∧
          t.pc = s.pc + 1#16 ∧ KeptRegs s t ∧ KeptControl s t ∧ KeptPorts s t) ∧
        (¬ s.inBounds ea → exec (.str sr base off) s = .fault (.memoryAddressOutOfBounds ea))

/-! ## TRAP -/

/-- R170, R171, with the built-in set of the spec's decision D10 in its last clauses: a TRAP word carries its vector
whatever bits 11:8 hold; a vector in BUILTIN_VECTORS runs its routine and any other goes through the table; and by
default the four rows run character-in, character-out, string-out and halt, and no other vector is built in. -/
def Obligations.TrapDispatchesOnVector : Prop :=
  (∀ (unused : BitVec 4) (v : TrapVector), trapVectorOf (decode (0b1111#4 ++ unused ++ v)) = some v) ∧
    (∀ (i : Instr) (s : State) (b : Builtin), s.builtinOf i = some b → exec i s = runBuiltin b s) ∧
    (∀ (i : Instr) (s : State) (v : TrapVector), trapVectorOf i = some v → s.builtinOf i = none →
      exec i s = tableTrap v s) ∧
    ∀ s : State, s.cfg.builtins = Config.default.builtins →
      s.builtinOf .trapGetc = some .charIn ∧ s.builtinOf .trapOut = some .charOut ∧
        s.builtinOf .trapPuts = some .stringOut ∧ s.builtinOf .trapHalt = some .haltMachine ∧
        ∀ v, (Instr.trapTable v).wf = true → s.builtinOf (.trapTable v) = none

/-- R172, R199; the order of table read and link write is the spec's decision D22, and that the link write sets the
condition codes is its decision D7: a table TRAP. With the default parameters it is every TRAP in the table form. -/
def Obligations.TableTrapLinksAndJumps : Prop :=
  ∀ (i : Instr) (v : TrapVector) (s : State), trapVectorOf i = some v → s.builtinOf i = none →
    let entry := BitVec.ofNat 16 (s.cfg.trapTableBase.toNat + v.toNat)
    (s.inBounds entry → ∃ t, exec i s = .next t ∧ WroteReg s t 7 (s.pc + 1#16) ∧
      t.pc = s.mem.read entry.toNat ∧ KeptRest s t) ∧
    (¬ s.inBounds entry → exec i s = .fault (.memoryAddressOutOfBounds entry))

/-- R173, with the spec's decisions D11, D12 and D13: character-in (TRAP x20 by default). The character the port
answers with goes zero-extended into R0, and end of input does what GETC_EOF_POLICY says. -/
def Obligations.CharacterInReadsPort : Prop :=
  ∀ (i : Instr) (s : State), s.builtinOf i = some .charIn →
    (∀ c rest, s.inPort.readChar = .char c rest → ∃ t, exec i s = .next t ∧
      WroteReg s t 0 (BitVec.ofNat 16 c.toNat) ∧ t.cc ≠ .n ∧ t.pc = s.pc + 1#16 ∧ KeptMem s t ∧ KeptControl s t ∧
      t.inPort = rest ∧ t.output = s.output) ∧
    (∀ rest, s.inPort.readChar = .endOfInput rest → s.cfg.eofPolicy = .stuck → exec i s = .fault .stuckEndOfInput) ∧
    (∀ rest, s.inPort.readChar = .endOfInput rest → s.cfg.eofPolicy = .zero → ∃ t, exec i s = .next t ∧
      WroteReg s t 0 0#16 ∧ t.cc = .z ∧ t.pc = s.pc + 1#16 ∧ KeptMem s t ∧ KeptControl s t ∧ t.inPort = rest ∧
      t.output = s.output) ∧
    (∀ rest, s.inPort.readChar = .endOfInput rest → s.cfg.eofPolicy = .halt → ∃ t, exec i s = .next t ∧
      t.halted = true ∧ t.pc = s.pc + 1#16 ∧ KeptRegs s t ∧ KeptMem s t ∧ t.cfg = s.cfg ∧ t.inPort = rest ∧
      t.output = s.output) ∧
    (s.inPort.readChar = .never → exec i s = .fault .stuckNoInput)

/-- The model's own way to hold the port's answers (notes/assumptions/5.md): the listed answers come first, in
order, each a character or one end of input; after them come characters the state does not list, or end of input each
time, or nothing. Whatever an unlisted character
is, character-in completes with it. -/
def Obligations.InputPortAnswersInOrder : Prop :=
  ∀ (i : Instr) (s : State), s.builtinOf i = some .charIn →
    (∀ c cs, s.inPort.queued = some c :: cs → ∃ t, exec i s = .next t ∧ t.readReg 0 = c.setWidth 16 ∧
      t.inPort = { s.inPort with queued := cs }) ∧
    (∀ cs, s.inPort.queued = none :: cs → s.inPort.readChar = .endOfInput { s.inPort with queued := cs }) ∧
    (s.inPort.queued = [] → s.inPort.tail = .unlisted → ∃ (c : Byte) (t : State), exec i s = .next t ∧
      WroteReg s t 0 (c.setWidth 16) ∧ t.inPort = { s.inPort with taken := s.inPort.taken + 1 }) ∧
    (s.inPort.queued = [] → s.inPort.tail = .endOfInput → s.inPort.readChar = .endOfInput s.inPort) ∧
    (s.inPort.queued = [] → s.inPort.tail = .silent → s.inPort.readChar = .never)

/-- With the default BUILTIN_VECTORS each TRAP row of the opcode table completes (R171 to R176, decision D10 of the
spec): GETC when the port answers with a character, OUT and HALT always, PUTS when a zero word ends the string in bounds,
and the table form when its entry is in bounds. -/
def Obligations.TrapRowsCompleteByDefault : Prop :=
  ∀ s : State, s.cfg.builtins = Config.default.builtins →
    (∀ c rest, s.inPort.readChar = .char c rest → ∃ t, exec .trapGetc s = .next t ∧
      t.readReg 0 = c.setWidth 16 ∧ t.pc = s.pc + 1#16) ∧
    (∃ t, exec .trapOut s = .next t ∧ t.output = s.output ++ [.char ((s.readReg 0).extractLsb' 0 8)] ∧
      t.pc = s.pc + 1#16) ∧
    (∀ n, (∀ k ≤ n, s.inBounds (s.readReg 0 + BitVec.ofNat 16 k)) → s.stringWord (s.readReg 0) n = 0#16 →
      ∃ t cs, exec .trapPuts s = .next t ∧ t.output = s.output ++ [.string cs] ∧ cs.length ≤ n ∧
        t.pc = s.pc + 1#16) ∧
    (∃ t, exec .trapHalt s = .next t ∧ t.halted = true ∧ t.pc = s.pc + 1#16) ∧
    ∀ v, (Instr.trapTable v).wf = true → s.inBounds (s.cfg.trapTableBase + v.setWidth 16) →
      ∃ t, exec (.trapTable v) s = .next t ∧ t.readReg 7 = s.pc + 1#16 ∧
        t.pc = s.mem.read (s.cfg.trapTableBase + v.setWidth 16).toNat

/-- R174, with the spec's decisions D11 and D14: character-out (TRAP x21 by default) emits bits 7:0 of R0 and changes
nothing else but the PC. -/
def Obligations.CharacterOutEmitsLowByte : Prop :=
  ∀ (i : Instr) (s : State), s.builtinOf i = some .charOut → ∃ t, exec i s = .next t ∧
    t.output = s.output ++ [.char (BitVec.ofNat 8 (s.readReg 0).toNat)] ∧ t.pc = s.pc + 1#16 ∧
    KeptRegs s t ∧ KeptMem s t ∧ KeptControl s t ∧ t.inPort = s.inPort

/-- R175, R230 (a), with the spec's decisions D11 and D15: string-out (TRAP x22 by default). The string is the low
bytes of the words from R0 up to the first zero word; a word out of bounds before that fails with its address and emits
nothing; and when every word of the address space is in bounds and none is zero the step never ends. -/
def Obligations.StringOutEmitsWholeString : Prop :=
  ∀ (i : Instr) (s : State), s.builtinOf i = some .stringOut → let a := s.readReg 0
    (∀ n, (∀ k ≤ n, s.inBounds (a + BitVec.ofNat 16 k)) → (∀ k < n, s.stringWord a k ≠ 0#16) →
      s.stringWord a n = 0#16 → ∃ t, exec i s = .next t ∧
        t.output = s.output ++ [.string ((List.range n).map fun k => BitVec.ofNat 8 (s.stringWord a k).toNat)] ∧
        t.pc = s.pc + 1#16 ∧ KeptRegs s t ∧ KeptMem s t ∧ KeptControl s t ∧ t.inPort = s.inPort) ∧
    (∀ n, (∀ k < n, s.inBounds (a + BitVec.ofNat 16 k) ∧ s.stringWord a k ≠ 0#16) →
      ¬ s.inBounds (a + BitVec.ofNat 16 n) →
        exec i s = .fault (.memoryAddressOutOfBounds (a + BitVec.ofNat 16 n))) ∧
    ((∀ b : Word, s.inBounds b ∧ s.mem.read b.toNat ≠ 0#16) → exec i s = .fault .stuckStringOut)

/-- R176, with the spec's decisions D11 and D16: halt (TRAP x25 by default) sets the latch and commits the PC; the
step is reported as halted. -/
def Obligations.HaltTrapSetsLatch : Prop :=
  ∀ (i : Instr) (s : State), s.builtinOf i = some .haltMachine → ∃ t, exec i s = .next t ∧
    t.halted = true ∧ outcomeOf (exec i s) = some .halted ∧ t.pc = s.pc + 1#16 ∧ KeptRegs s t ∧ KeptMem s t ∧
    t.cfg = s.cfg ∧ KeptPorts s t

/-- R177, by the spec's decision D11: a built-in trap goes on at the next word, writes no register but R0, so not the
link register, and writes no memory; and it never reads the trap vector table: with the table anywhere else it does the
same. -/
def Obligations.BuiltinTrapsNeverLink : Prop :=
  ∀ (i : Instr) (s : State) (b : Builtin), s.builtinOf i = some b →
    (∀ t, exec i s = .next t → t.pc = s.pc + 1#16 ∧ t.readReg linkReg = s.readReg linkReg ∧
      (∀ q, q ≠ 0 → t.readReg q = s.readReg q) ∧ KeptMem s t) ∧
    ∀ base : Word, exec i (s.moveTrapTable base) = mapNext (fun t => t.moveTrapTable base) (exec i s)

/-- R178: every word with the reserved opcode 1101 fails with IllegalOpcode when it is executed. -/
def Obligations.ReservedOpcodeFails : Prop :=
  (∀ low : BitVec 12, decode (0b1101#4 ++ low) = .reserved1101) ∧
    ∀ s : State, exec .reserved1101 s = .fault .illegalOpcode ∧
      outcomeOf (exec .reserved1101 s) = some (.failed .illegalOpcode)

/-- R179, by the spec's decision D3: so does every word with the unassigned opcode 1000. -/
def Obligations.UnassignedOpcodeFails : Prop :=
  (∀ low : BitVec 12, decode (0b1000#4 ++ low) = .illegal1000) ∧
    ∀ s : State, exec .illegal1000 s = .fault .illegalOpcode ∧
      outcomeOf (exec .illegal1000 s) = some (.failed .illegalOpcode)

/-! ## The step -/

/-- R111: a step runs the instruction its word decodes to; while halted it does nothing, and a fetch out of bounds fails
before anything is decoded. -/
def Obligations.StepRunsDecodedInstruction : Prop :=
  ∀ s : State,
    (s.halted = false → s.inBounds s.pc → step s = exec (decode (s.mem.read s.pc.toNat)) s) ∧
      (s.halted = false → ¬ s.inBounds s.pc → step s = .fault (.memoryAddressOutOfBounds s.pc)) ∧
      (s.halted = true → step s = .next s)

/-- A word placed where the next step fetches is the word it runs, from any state whose PC is in bounds. -/
def Obligations.PlacedWordIsExecuted : Prop :=
  ∀ (s : State) (w : Nat), s.inBounds s.pc → w < 65536 →
    ∃ i, decodeTableWord 16 w = some i ∧ step (s.withFetchWord 16 w) = exec i (s.withFetchWord 16 w) ∧
      KeptRegs s (s.withFetchWord 16 w) ∧ (s.withFetchWord 16 w).pc = s.pc

/-- R116, R26: a completed instruction other than BR, JMP, JSR, JSRR and table TRAP leaves the PC at the next word; that
it does so also when it halts is the spec's decision D16 (R176). That no instruction changes the parameters of R5 is the
model's choice to hold them in the state (notes/assumptions/1.md). -/
def Obligations.PcAdvancesUnlessTransferred : Prop :=
  ∀ (i : Instr) (s t : State), exec i s = .next t →
    (s.mayTransfer i = false → t.pc = s.pc + 1#16) ∧ t.cfg = s.cfg

/-- R115, R120, with the spec's decisions D21 and D26: after a failed step the host finds the state the step began
with, and asking again gives the same failure. -/
def Obligations.FailedStepChangesNothing : Prop :=
  ∀ (s t : State) (f : Fault), s.stepRequest = (some (.failed f), t) →
    t = s ∧ t.stepRequest = (some (.failed f), s) ∧ step s = .fault f ∧ f.isFailure = true

/-- R190: the ways a step can stop are closed: an illegal opcode that was fetched, an access out of bounds, or one of
the steps that never end, which only character-in and string-out have; no step is refused. -/
def Obligations.StepStopsAreClosed : Prop :=
  ∀ s : State,
    (∀ r, step s ≠ .refused r) ∧
      ∀ f, step s = .fault f → s.halted = false ∧
        ((f = .illegalOpcode ∧ ∃ i, s.fetch = .ok i ∧ i.isIllegal = true) ∨
          (∃ a, f = .memoryAddressOutOfBounds a ∧ ¬ s.inBounds a) ∨
          (f.isFailure = false ∧ ∃ i, s.fetch = .ok i ∧
            (s.builtinOf i = some .charIn ∧ (f = .stuckEndOfInput ∨ f = .stuckNoInput) ∨
              s.builtinOf i = some .stringOut ∧ f = .stuckStringOut)))

/-- R192: an out-of-bounds failure names an address at or above MEM_SIZE, comes from the fetch or from an instruction
that accesses memory, changes nothing, and cannot happen when MEM_SIZE is 65536. -/
def Obligations.OutOfBoundsComesFromAccess : Prop :=
  ∀ (s : State) (a : Word), step s = .fault (.memoryAddressOutOfBounds a) →
    s.cfg.memSize ≤ a.toNat ∧ s.cfg.memSize ≠ 65536 ∧ s.stepRequest.2 = s ∧
      (a = s.pc ∨ ∃ i, s.fetch = .ok i ∧ s.accessesMemory i = true)

/-- R22, R193, by the spec's decision D29: a register address is built from 0 to 7 and from nothing above, and no step
fails so. -/
def Obligations.InvalidRegisterAddressUnreachable : Prop :=
  (∀ v, v < 8 → ∃ r, registerAddress v = .ok r ∧ r.val = v) ∧
    (∀ v, 8 ≤ v → registerAddress v = .error (.invalidRegisterAddress v)) ∧
    ∀ (s : State) (v : Nat), step s ≠ .fault (.invalidRegisterAddress v)

/-- R197, which the spec derives: the halted latch is looked at before the fetch, the fetch before the opcode, the
opcode before any other access, and LDI's and STI's first access before their second. -/
def Obligations.ChecksHappenInOrder : Prop :=
  ∀ s : State,
    (s.halted = true → outcomeOf (step s) = some .halted) ∧
      (s.halted = false → ¬ s.inBounds s.pc → step s = .fault (.memoryAddressOutOfBounds s.pc)) ∧
      (s.halted = false → s.inBounds s.pc → (decode (s.mem.read s.pc.toNat)).isIllegal = true →
        step s = .fault .illegalOpcode) ∧
      ∀ (r : RegAddr) (off : Word), ¬ s.inBounds (s.pc + 1#16 + off) →
        exec (.ldi r off) s = .fault (.memoryAddressOutOfBounds (s.pc + 1#16 + off)) ∧
          exec (.sti r off) s = .fault (.memoryAddressOutOfBounds (s.pc + 1#16 + off))

/-- R117, and R195 whose codes are the spec's decision D23. A completed step is reported `halted` or `continued` as its
latch is set or clear afterwards, and a failure as `failed`; each outcome and cause has its code and value; no step
request is answered with the code 11 or with the cause code 01 or 11, and a cause is given exactly for a failure. -/
def Obligations.ReportedCodesAreTheListedOnes : Prop :=
  (∀ s t : State, step s = .next t → s.stepRequest = (some (if t.halted then .halted else .continued), t)) ∧
    (∀ (s : State) (f : Fault), step s = .fault f → f.isFailure = true → s.stepRequest = (some (.failed f), s)) ∧
    (StepOutcome.continued.code = 0b00#2 ∧ StepOutcome.halted.code = 0b01#2 ∧
      ∀ f, (StepOutcome.failed f).code = 0b10#2) ∧
    (StepOutcome.failed .illegalOpcode).causeCode = some 0b00#2 ∧
    (∀ v, (StepOutcome.failed (.invalidRegisterAddress v)).causeCode = some 0b01#2 ∧
      (StepOutcome.failed (.invalidRegisterAddress v)).causeValue = some (BitVec.ofNat 16 v)) ∧
    (∀ a, (StepOutcome.failed (.memoryAddressOutOfBounds a)).causeCode = some 0b10#2 ∧
      (StepOutcome.failed (.memoryAddressOutOfBounds a)).causeValue = some a) ∧
    ∀ (s t : State) (o : StepOutcome), s.stepRequest = (some o, t) →
      o.code ≠ 0b11#2 ∧ (o.causeCode.isSome = true ↔ o.code = 0b10#2) ∧
        o.causeCode ≠ some 0b01#2 ∧ o.causeCode ≠ some 0b11#2

/-! ## Memory -/

/-- R51: the memory port. A read in bounds answers the word and changes nothing; a write in bounds changes that word
and no other; either out of bounds fails with its address. -/
def Obligations.MemoryPortContract : Prop :=
  ∀ (s : State) (a v : Word),
    (s.inBounds a → s.memRead a = .ok (s.mem.read a.toNat) ∧ ∃ t, s.memWrite a v = .ok t ∧
      (∀ b : Word, t.memRead b = if b = a then .ok v else s.memRead b) ∧ StoredWord s t a v ∧
      t.pc = s.pc ∧ KeptRegs s t ∧ KeptControl s t ∧ KeptPorts s t) ∧
    (¬ s.inBounds a → s.memRead a = .error (.memoryAddressOutOfBounds a) ∧
      s.memWrite a v = .error (.memoryAddressOutOfBounds a))

/-- 20_memory R50, R55 and R154 to R156: a completed instruction that is no store leaves all of memory, and a completed
ST, STI or STR stores its register at its own address, which is in bounds, and leaves every byte outside that word. -/
def Obligations.OnlyStoresWriteMemory : Prop :=
  (∀ (i : Instr) (s t : State), isStore i = false → exec i s = .next t → t.mem = s.mem ∧ KeptMem s t) ∧
    (∀ (sr : RegAddr) (off : Word) (s t : State), exec (.st sr off) s = .next t →
      s.inBounds (s.pcRelative off) ∧ StoredWord s t (s.pcRelative off) (s.readReg sr)) ∧
    (∀ (sr : RegAddr) (off : Word) (s t : State), exec (.sti sr off) s = .next t →
      ∃ a, s.indirect off = .ok a ∧ s.inBounds a ∧ StoredWord s t a (s.readReg sr)) ∧
    ∀ (sr base : RegAddr) (off : Word) (s t : State), exec (.str sr base off) s = .next t →
      s.inBounds (s.baseOffset base off) ∧ StoredWord s t (s.baseOffset base off) (s.readReg sr)

/-- R61, which the spec derives: a word that was stored is what a later fetch of that address decodes, starting with
the next step; a store over the next word is the instruction that runs next. -/
def Obligations.StoredWordIsFetchedNext : Prop :=
  (∀ (s t u : State) (a v : Word), s.memWrite a v = .ok t → u.mem = t.mem → u.cfg = t.cfg → u.pc = a →
      u.fetch = .ok (decode v)) ∧
    ∀ (s t : State) (sr : RegAddr), s.halted = false → exec (.st sr 0#16) s = .next t →
      step t = exec (decode (s.readReg sr)) t

/-- R64: after an image is loaded into a fresh machine the named words hold what the image says and every other
in-bounds word is zero; and a zero word executes as a branch that is never taken, changing nothing but the PC. -/
def Obligations.UnloadedWordsAreZeroAndWalk : Prop :=
  (∀ (c : Config) (start : Option Word) (port : InPort) (image : List (Word × Word)) (t : State),
      (State.resetAt c start port).loadImage image = .ok t →
      (∀ a, t.inBounds a → (∀ v, (a, v) ∉ image) → t.memRead a = .ok 0#16) ∧
        ((image.map Prod.fst).Nodup → ∀ a v, (a, v) ∈ image → t.memRead a = .ok v)) ∧
    ∀ s : State, s.halted = false → s.memRead s.pc = .ok 0#16 →
      ∃ t, step s = .next t ∧ t.pc = s.pc + 1#16 ∧ KeptRegs s t ∧ KeptRest s t

/-! ## Halt, reset and the host -/

/-- R33, R119, by the spec's decision D16: once halted, any number of step requests changes nothing and each is answered
`halted`; only a host reset clears the latch. -/
def Obligations.HaltedIsTerminal : Prop :=
  ∀ s : State, s.halted = true →
    (∀ k, Sys2Proof.core.run k s = .next s) ∧ s.stepRequest = (some .halted, s) ∧
      ∀ start, (s.hostReset start).halted = false

/-- R33, by the spec's decision D16: a step sets the latch only by the halt trap, or by character-in at end of input
where GETC_EOF_POLICY is `halt`, and no step clears it. -/
def Obligations.LatchIsSetOnlyByHalt : Prop :=
  ∀ s t : State, step s = .next t →
    (s.halted = true → t.halted = true) ∧
      (s.halted = false → t.halted = true → ∃ i, s.fetch = .ok i ∧ s.halts i = true)

/-- R35, R220, with the spec's decisions D16, D18 and D19 (registers and memory zero are the source's): the state after
reset, for all parameters and start addresses, and the state any machine is in after the host resets it. That the host's
reset keeps the parameters and what the I/O port holds is the model's choice (notes/assumptions/12.md). -/
def Obligations.ResetValues : Prop :=
  (∀ (c : Config) (start : Option Word) (port : InPort),
      (State.resetAt c start port).AtResetValues start ∧ (State.resetAt c start port).cfg = c) ∧
    (∀ (s : State) (start : Option Word),
      (s.hostReset start).AtResetValues start ∧ (s.hostReset start).cfg = s.cfg ∧ KeptPorts s (s.hostReset start)) ∧
    State.reset.pc = 0x3000#16

/-- R36, by the spec's decision D27: a host preset writes the one register and leaves the condition codes and all
else. -/
def Obligations.PresetLeavesFlags : Prop :=
  ∀ (s : State) (r : RegAddr) (v : Word), let t := s.presetReg r v
    t.readReg r = v ∧ (∀ q, q ≠ r → t.readReg q = s.readReg q) ∧ t.cc = s.cc ∧ t.pc = s.pc ∧ KeptRest s t

/-- The invariant holds after reset, for all parameters R5 allows (20_memory R52). -/
def Obligations.ResetMeetsInvariant : Prop :=
  ∀ (c : Config) (start : Option Word) (port : InPort), c.wf → (State.resetAt c start port).Inv

/-- The invariant is kept by every step: memory stays canonical and inside the backing store and the parameters stay
legal (20_memory R51, R52; 00_scope R5). -/
def Obligations.StepKeepsInvariant : Prop :=
  ∀ s t : State, s.Inv → step s = .next t → t.Inv

/-- 00_scope R10: the block emits only by character-out and string-out, one transaction each, after everything emitted
before, and takes from the input side only by character-in. -/
def Obligations.PortsAreUsedOnlyByBuiltins : Prop :=
  ∀ (i : Instr) (s t : State), exec i s = .next t →
    (t.output = s.output ∨
      (∃ w, t.output = s.output ++ [w]) ∧ (s.builtinOf i = some .charOut ∨ s.builtinOf i = some .stringOut)) ∧
      (t.inPort = s.inPort ∨ s.builtinOf i = some .charIn)
end

