-- ==== Sys2Proof/Laws/Decode.lean ====
section
/-! SUPPORT. What the decoder gives for each opcode, and the field helpers, once. -/

namespace Sys2Proof

@[simp] theorem regOf_regBits (r : RegAddr) : regOf (regBits r) = r := rfl
@[simp] theorem regBits_regOf (b : BitVec 3) : regBits (regOf b) = b := rfl

variable {w : Word}

theorem decode_br (h : opcodeOf w = 0b0000#4) :
    decode w = .br (w.getLsbD 11) (w.getLsbD 10) (w.getLsbD 9) (off9Of w) := by
  unfold decode
  rw [h]
  rfl

theorem decode_addReg (h : opcodeOf w = 0b0001#4) (hs : w.getLsbD 5 = false) :
    decode w = .addReg (regHi w) (regMid w) (regLo w) := by
  unfold decode
  rw [h, hs]
  rfl

theorem decode_addImm (h : opcodeOf w = 0b0001#4) (hs : w.getLsbD 5 = true) :
    decode w = .addImm (regHi w) (regMid w) (imm5Of w) := by
  unfold decode
  rw [h, hs]
  rfl

theorem decode_ld (h : opcodeOf w = 0b0010#4) :
    decode w = .ld (regHi w) (off9Of w) := by
  unfold decode
  rw [h]
  rfl

theorem decode_st (h : opcodeOf w = 0b0011#4) :
    decode w = .st (regHi w) (off9Of w) := by
  unfold decode
  rw [h]
  rfl

theorem decode_jsr (h : opcodeOf w = 0b0100#4) (hs : w.getLsbD 11 = true) :
    decode w = .jsr (off11Of w) := by
  unfold decode
  rw [h, hs]
  rfl

theorem decode_jsrr (h : opcodeOf w = 0b0100#4) (hs : w.getLsbD 11 = false) :
    decode w = .jsrr (regMid w) := by
  unfold decode
  rw [h, hs]
  rfl

theorem decode_andReg (h : opcodeOf w = 0b0101#4) (hs : w.getLsbD 5 = false) :
    decode w = .andReg (regHi w) (regMid w) (regLo w) := by
  unfold decode
  rw [h, hs]
  rfl

theorem decode_andImm (h : opcodeOf w = 0b0101#4) (hs : w.getLsbD 5 = true) :
    decode w = .andImm (regHi w) (regMid w) (imm5Of w) := by
  unfold decode
  rw [h, hs]
  rfl

theorem decode_ldr (h : opcodeOf w = 0b0110#4) :
    decode w = .ldr (regHi w) (regMid w) (off6Of w) := by
  unfold decode
  rw [h]
  rfl

theorem decode_str (h : opcodeOf w = 0b0111#4) :
    decode w = .str (regHi w) (regMid w) (off6Of w) := by
  unfold decode
  rw [h]
  rfl

theorem decode_illegal1000 (h : opcodeOf w = 0b1000#4) :
    decode w = .illegal1000 := by
  unfold decode
  rw [h]
  rfl

theorem decode_notReg (h : opcodeOf w = 0b1001#4) :
    decode w = .notReg (regHi w) (regMid w) := by
  unfold decode
  rw [h]
  rfl

theorem decode_ldi (h : opcodeOf w = 0b1010#4) :
    decode w = .ldi (regHi w) (off9Of w) := by
  unfold decode
  rw [h]
  rfl

theorem decode_sti (h : opcodeOf w = 0b1011#4) :
    decode w = .sti (regHi w) (off9Of w) := by
  unfold decode
  rw [h]
  rfl

theorem decode_jmp (h : opcodeOf w = 0b1100#4) :
    decode w = .jmp (regMid w) := by
  unfold decode
  rw [h]
  rfl

theorem decode_reserved1101 (h : opcodeOf w = 0b1101#4) :
    decode w = .reserved1101 := by
  unfold decode
  rw [h]
  rfl

theorem decode_lea (h : opcodeOf w = 0b1110#4) :
    decode w = .lea (regHi w) (off9Of w) := by
  unfold decode
  rw [h]
  rfl

theorem decode_trap (h : opcodeOf w = 0b1111#4) :
    decode w = decodeTrap (w.extractLsb' 0 8) := by
  unfold decode
  rw [h]
  rfl

/-- A TRAP word is the row of its vector. -/
theorem decodeTrap_cases (v : TrapVector) :
    (v = 0x20#8 ∧ decodeTrap v = .trapGetc) ∨ (v = 0x21#8 ∧ decodeTrap v = .trapOut) ∨
      (v = 0x22#8 ∧ decodeTrap v = .trapPuts) ∨ (v = 0x25#8 ∧ decodeTrap v = .trapHalt) ∨
      (rowVectors.contains v = false ∧ decodeTrap v = .trapTable v) := by
  unfold decodeTrap
  by_cases h0 : v = 0x20#8
  · simp [h0]
  by_cases h1 : v = 0x21#8
  · simp [h1]
  by_cases h2 : v = 0x22#8
  · simp [h2]
  by_cases h3 : v = 0x25#8
  · simp [h3]
  · simp [h0, h1, h2, h3, rowVectors]

/-- The sixteen values of the opcode field. -/
theorem opcode_cases (w : Word) :
    opcodeOf w = 0b0000#4 ∨ opcodeOf w = 0b0001#4 ∨ opcodeOf w = 0b0010#4 ∨ opcodeOf w = 0b0011#4 ∨
      opcodeOf w = 0b0100#4 ∨ opcodeOf w = 0b0101#4 ∨ opcodeOf w = 0b0110#4 ∨ opcodeOf w = 0b0111#4 ∨
      opcodeOf w = 0b1000#4 ∨ opcodeOf w = 0b1001#4 ∨ opcodeOf w = 0b1010#4 ∨ opcodeOf w = 0b1011#4 ∨
      opcodeOf w = 0b1100#4 ∨ opcodeOf w = 0b1101#4 ∨ opcodeOf w = 0b1110#4 ∨ opcodeOf w = 0b1111#4 := by
  generalize opcodeOf w = o
  revert o
  decide

/-- The sign extension of a field is in the range of its width (R14). -/
theorem fitsSigned_sext {n : Nat} (v : BitVec n) (h1 : 1 ≤ n) (h : n ≤ 16) : fitsSigned n (sext v) = true := by
  have hi : (sext v).toInt = v.toInt := BitVec.toInt_signExtend_of_le h
  have := BitVec.two_mul_toInt_lt (x := v)
  have := BitVec.le_two_mul_toInt (x := v)
  have hp : (2 : Int) ^ n = 2 * 2 ^ (n - 1) := by
    conv_lhs => rw [show n = (n - 1) + 1 by omega, Int.pow_succ, Int.mul_comm]
  simp only [fitsSigned, hi, Bool.and_eq_true, decide_eq_true_eq]
  omega

/-- A value in the range of a width is the sign extension of its low bits (R14). -/
theorem sext_low {n : Nat} (v : Word) (h1 : 1 ≤ n) (h : n ≤ 16) (hf : fitsSigned n v = true) :
    sext (v.extractLsb' 0 n) = v := by
  apply BitVec.eq_of_toInt_eq
  have hi : (sext (v.extractLsb' 0 n)).toInt = (v.extractLsb' 0 n).toInt := BitVec.toInt_signExtend_of_le h
  have hp : (2 : Int) ^ n = 2 * 2 ^ (n - 1) := by
    conv_lhs => rw [show n = (n - 1) + 1 by omega, Int.pow_succ, Int.mul_comm]
  have hd : ((2 ^ n : Nat) : Int) ∣ ((2 ^ 16 : Nat) : Int) := Int.natCast_dvd_natCast.mpr (Nat.pow_dvd_pow 2 h)
  simp only [fitsSigned, Bool.and_eq_true, decide_eq_true_eq] at hf
  have hv : v.toInt = (v.toNat : Int).bmod (2 ^ 16) := BitVec.toInt_eq_toNat_bmod v
  have hl : v.toInt.bmod (2 ^ n) = (v.toNat : Int).bmod (2 ^ n) := by
    rw [hv, Int.bmod_bmod_of_dvd (Nat.pow_dvd_pow 2 h)]
  rw [hi, BitVec.toInt_eq_toNat_bmod, BitVec.extractLsb'_toNat, Nat.shiftRight_zero, Int.natCast_mod, Int.emod_bmod,
    ← hl]
  apply Int.bmod_eq_of_le <;> push_cast <;> omega

end Sys2Proof
end

