-- ==== Sys2Proof/Laws/Memory.lean ====
section
/-! SUPPORT. What the memory operations do: a read after a write, every other byte left alone, and the canonical form
kept. The reads after a write hold of every list, canonical or not. -/

namespace Sys2Proof.Machine

/-- The empty memory reads zero everywhere. -/
@[simp] theorem Memory.readByte_nil (k : Nat) : Memory.readByte [] k = 0x00#8 := rfl

/-- Removing the cells of one key leaves the others. -/
theorem Memory.readByte_filter (m : Memory) (k j : Nat) :
    Memory.readByte (m.filter (fun c => c.1 != k)) j = if j = k then 0x00#8 else m.readByte j := by
  induction m with
  | nil => simp
  | cons c rest ih => grind [Memory.readByte]

/-- A cell with a new key is read back, and the others as before. -/
theorem Memory.readByte_place (m : Memory) (c : Host.Cell) (j : Nat) (h : ∀ d ∈ m, d.1 ≠ c.1) :
    Memory.readByte (Memory.place m c) j = if j = c.1 then c.2 else m.readByte j := by
  induction m with
  | nil => grind [Memory.readByte, Memory.place]
  | cons d rest ih => grind [Memory.readByte, Memory.place]

/-- A byte read after a byte is written. -/
@[simp] theorem Memory.readByte_writeByte (m : Memory) (k j : Nat) (b : Byte) :
    (m.writeByte k b).readByte j = if j = k then b else m.readByte j := by
  unfold Memory.writeByte
  by_cases hb : b = 0x00#8
  · simp [hb, Memory.readByte_filter]
  · rw [if_neg hb, Memory.readByte_place _ _ _ (by simp)]
    by_cases hj : j = k <;> simp [hj, Memory.readByte_filter]

/-- A byte read after a word is written. -/
theorem Memory.readByte_write (m : Memory) (a k : Nat) (v : Word) :
    (m.write a v).readByte k =
      if k = 2 * a + 1 then v.extractLsb' 8 8 else if k = 2 * a then v.extractLsb' 0 8 else m.readByte k := by
  simp [Memory.write]

/-- The two halves of a word make the word. -/
theorem word_halves (v : Word) : v.extractLsb' 8 8 ++ v.extractLsb' 0 8 = v := by grind

/-- A word read after a word is written. -/
@[simp] theorem Memory.read_write (m : Memory) (a b : Nat) (v : Word) :
    (m.write a v).read b = if b = a then v else m.read b := by
  unfold Memory.read
  by_cases h : b = a
  · subst h
    simp [Memory.readByte_write, word_halves]
  · have h1 : 2 * b + 1 ≠ 2 * a := by omega
    have h2 : 2 * b ≠ 2 * a + 1 := by omega
    simp [Memory.readByte_write, h, h1, h2]

/-- An empty memory holds the word zero at every address. -/
@[simp] theorem Memory.read_nil (a : Nat) : Memory.read [] a = 0x0000#16 := by
  simp [Memory.read]

theorem Memory.mem_place (m : Memory) (c d : Host.Cell) : d ∈ Memory.place m c ↔ d = c ∨ d ∈ m := by
  induction m with
  | nil => simp [Memory.place]
  | cons e rest ih => grind [Memory.place]

theorem Memory.mem_writeByte {m : Memory} {k : Nat} {b : Byte} {d : Host.Cell} (h : d ∈ m.writeByte k b) :
    (d = (k, b) ∧ b ≠ 0x00#8) ∨ d ∈ m := by
  unfold Memory.writeByte at h
  grind [Memory.mem_place]

theorem Memory.place_sorted (m : Memory) (c : Host.Cell) (h : m.Pairwise (fun c d => c.1 < d.1))
    (new : ∀ d ∈ m, d.1 ≠ c.1) : (Memory.place m c).Pairwise (fun c d => c.1 < d.1) := by
  induction m with
  | nil => simp [Memory.place]
  | cons e rest ih =>
    have he := List.pairwise_cons.mp h
    unfold Memory.place
    split
    · rename_i hlt
      exact List.pairwise_cons.mpr ⟨by grind, h⟩
    · refine List.pairwise_cons.mpr ⟨?_, ih he.2 (by grind)⟩
      intro d hd
      have := new e (by simp)
      grind [Memory.mem_place]

/-- A byte write keeps the canonical form. -/
theorem Memory.writeByte_wf {m : Memory} (k : Nat) (b : Byte) (h : m.wf) : (m.writeByte k b).wf := by
  refine ⟨?_, fun d hd => ?_⟩
  · unfold Memory.writeByte
    have hf : (m.filter (fun c => c.1 != k)).Pairwise (fun c d => c.1 < d.1) := h.1.filter _
    split
    · exact hf
    · exact Memory.place_sorted _ _ hf (by simp)
  · rcases Memory.mem_writeByte hd with ⟨rfl, hb⟩ | hd
    · exact hb
    · exact h.2 d hd

/-- The memory after reset is canonical. -/
theorem State.reset_mem_wf : State.reset.mem.wf := by decide

/-- A word write keeps the canonical form. -/
theorem Memory.write_wf {m : Memory} (a : Nat) (v : Word) (h : m.wf) : (m.write a v).wf :=
  Memory.writeByte_wf _ _ (Memory.writeByte_wf _ _ h)

/-- A word write below the size keeps every listed byte below it. -/
theorem Memory.write_within {m : Memory} {size a : Nat} (v : Word) (ha : a < size) (h : m.within size) :
    (m.write a v).within size := by
  intro d hd
  rcases Memory.mem_writeByte hd with ⟨rfl, -⟩ | hd
  · show 2 * a + 1 < 2 * size
    omega
  · rcases Memory.mem_writeByte hd with ⟨rfl, -⟩ | hd
    · show 2 * a < 2 * size
      omega
    · exact h d hd

theorem Memory.readByte_of_mem {m : Memory} (h : m.Pairwise (fun c d => c.1 < d.1)) {c : Host.Cell} (hc : c ∈ m) :
    m.readByte c.1 = c.2 := by
  induction m with
  | nil => simp at hc
  | cons d rest ih =>
    have hd := List.pairwise_cons.mp h
    rcases List.mem_cons.mp hc with rfl | hc
    · simp [Memory.readByte]
    · have := hd.1 c hc
      rw [Memory.readByte, if_neg (by omega)]
      exact ih hd.2 hc

theorem Memory.readByte_absent {m : Memory} {k : Nat} (h : ∀ c ∈ m, c.1 ≠ k) : m.readByte k = 0x00#8 := by
  induction m with
  | nil => rfl
  | cons d rest ih => grind [Memory.readByte]

/-- A word above everything listed is zero. -/
theorem Memory.read_outside {m : Memory} {size a : Nat} (h : m.within size) (ha : size ≤ a) : m.read a = 0x0000#16 := by
  unfold Memory.read
  rw [Memory.readByte_absent fun c hc e => by have := h c hc; omega,
    Memory.readByte_absent fun c hc e => by have := h c hc; omega]
  rfl

/-- In a canonical memory a cell is listed exactly when its byte is not zero. -/
theorem Memory.mem_iff {m : Memory} (h : m.wf) (c : Host.Cell) : c ∈ m ↔ m.readByte c.1 = c.2 ∧ c.2 ≠ 0x00#8 := by
  constructor
  · exact fun hc => ⟨Memory.readByte_of_mem h.1 hc, h.2 c hc⟩
  · rintro ⟨hr, hne⟩
    by_contra hc
    by_cases hk : ∀ d ∈ m, d.1 ≠ c.1
    · exact hne (hr ▸ Memory.readByte_absent hk)
    · push Not at hk
      obtain ⟨d, hd, he⟩ := hk
      have := Memory.readByte_of_mem h.1 hd
      exact hc (by rw [show c = d from Prod.ext he.symm (by rw [← hr, ← this, he])]; exact hd)

/-- Canonical memories that read the same are equal. -/
theorem Memory.ext_of_wf {m n : Memory} (hm : m.wf) (hn : n.wf) (h : ∀ k, m.readByte k = n.readByte k) : m = n := by
  refine List.Perm.eq_of_pairwise (le := fun c d => c.1 < d.1) (fun a b _ _ h1 h2 => by omega) hm.1 hn.1 ?_
  refine (List.perm_ext_iff_of_nodup ?_ ?_).mpr fun c => ?_
  · exact hm.1.imp fun h e => by subst e; omega
  · exact hn.1.imp fun h e => by subst e; omega
  · rw [Memory.mem_iff hm, Memory.mem_iff hn, h]

end Sys2Proof.Machine
end

