-- ==== Sys2Proof/Laws/State.lean ====
section
/-! SUPPORT. One lemma per field per update of `State`, so that no later proof unfolds a record update, and what each
update does to the registers. -/

namespace Sys2Proof.Machine

variable (s : State)

/-! ### `State.setMem` -/

@[simp] theorem State.setMem_regs (m : Memory) : (s.setMem m).regs = s.regs := rfl
@[simp] theorem State.setMem_pc (m : Memory) : (s.setMem m).pc = s.pc := rfl
@[simp] theorem State.setMem_cc (m : Memory) : (s.setMem m).cc = s.cc := rfl
@[simp] theorem State.setMem_halted (m : Memory) : (s.setMem m).halted = s.halted := rfl
@[simp] theorem State.setMem_mem (m : Memory) : (s.setMem m).mem = m := rfl
@[simp] theorem State.setMem_cfg (m : Memory) : (s.setMem m).cfg = s.cfg := rfl
@[simp] theorem State.setMem_inPort (m : Memory) : (s.setMem m).inPort = s.inPort := rfl
@[simp] theorem State.setMem_output (m : Memory) : (s.setMem m).output = s.output := rfl

/-! ### `State.setPort` -/

@[simp] theorem State.setPort_regs (port : InPort) : (s.setPort port).regs = s.regs := rfl
@[simp] theorem State.setPort_pc (port : InPort) : (s.setPort port).pc = s.pc := rfl
@[simp] theorem State.setPort_cc (port : InPort) : (s.setPort port).cc = s.cc := rfl
@[simp] theorem State.setPort_halted (port : InPort) : (s.setPort port).halted = s.halted := rfl
@[simp] theorem State.setPort_mem (port : InPort) : (s.setPort port).mem = s.mem := rfl
@[simp] theorem State.setPort_cfg (port : InPort) : (s.setPort port).cfg = s.cfg := rfl
@[simp] theorem State.setPort_inPort (port : InPort) : (s.setPort port).inPort = port := rfl
@[simp] theorem State.setPort_output (port : InPort) : (s.setPort port).output = s.output := rfl

/-! ### `State.setHalted` -/

@[simp] theorem State.setHalted_regs (h : Bool) : (s.setHalted h).regs = s.regs := rfl
@[simp] theorem State.setHalted_pc (h : Bool) : (s.setHalted h).pc = s.pc := rfl
@[simp] theorem State.setHalted_cc (h : Bool) : (s.setHalted h).cc = s.cc := rfl
@[simp] theorem State.setHalted_halted (h : Bool) : (s.setHalted h).halted = h := rfl
@[simp] theorem State.setHalted_mem (h : Bool) : (s.setHalted h).mem = s.mem := rfl
@[simp] theorem State.setHalted_cfg (h : Bool) : (s.setHalted h).cfg = s.cfg := rfl
@[simp] theorem State.setHalted_inPort (h : Bool) : (s.setHalted h).inPort = s.inPort := rfl
@[simp] theorem State.setHalted_output (h : Bool) : (s.setHalted h).output = s.output := rfl

/-! ### `State.setPc` -/

@[simp] theorem State.setPc_regs (a : Word) : (s.setPc a).regs = s.regs := rfl
@[simp] theorem State.setPc_pc (a : Word) : (s.setPc a).pc = a := rfl
@[simp] theorem State.setPc_cc (a : Word) : (s.setPc a).cc = s.cc := rfl
@[simp] theorem State.setPc_halted (a : Word) : (s.setPc a).halted = s.halted := rfl
@[simp] theorem State.setPc_mem (a : Word) : (s.setPc a).mem = s.mem := rfl
@[simp] theorem State.setPc_cfg (a : Word) : (s.setPc a).cfg = s.cfg := rfl
@[simp] theorem State.setPc_inPort (a : Word) : (s.setPc a).inPort = s.inPort := rfl
@[simp] theorem State.setPc_output (a : Word) : (s.setPc a).output = s.output := rfl

/-! ### `State.setReg` -/

@[simp] theorem State.setReg_pc (r : RegAddr) (v : Word) : (s.setReg r v).pc = s.pc := rfl
@[simp] theorem State.setReg_cc (r : RegAddr) (v : Word) : (s.setReg r v).cc = s.cc := rfl
@[simp] theorem State.setReg_halted (r : RegAddr) (v : Word) : (s.setReg r v).halted = s.halted := rfl
@[simp] theorem State.setReg_mem (r : RegAddr) (v : Word) : (s.setReg r v).mem = s.mem := rfl
@[simp] theorem State.setReg_cfg (r : RegAddr) (v : Word) : (s.setReg r v).cfg = s.cfg := rfl
@[simp] theorem State.setReg_inPort (r : RegAddr) (v : Word) : (s.setReg r v).inPort = s.inPort := rfl
@[simp] theorem State.setReg_output (r : RegAddr) (v : Word) : (s.setReg r v).output = s.output := rfl

/-! ### `State.writeReg` -/

@[simp] theorem State.writeReg_pc (r : RegAddr) (v : Word) : (s.writeReg r v).pc = s.pc := rfl
@[simp] theorem State.writeReg_cc (r : RegAddr) (v : Word) : (s.writeReg r v).cc = condOf v := rfl
@[simp] theorem State.writeReg_halted (r : RegAddr) (v : Word) : (s.writeReg r v).halted = s.halted := rfl
@[simp] theorem State.writeReg_mem (r : RegAddr) (v : Word) : (s.writeReg r v).mem = s.mem := rfl
@[simp] theorem State.writeReg_cfg (r : RegAddr) (v : Word) : (s.writeReg r v).cfg = s.cfg := rfl
@[simp] theorem State.writeReg_inPort (r : RegAddr) (v : Word) : (s.writeReg r v).inPort = s.inPort := rfl
@[simp] theorem State.writeReg_output (r : RegAddr) (v : Word) : (s.writeReg r v).output = s.output := rfl

/-! ### `State.retire` -/

@[simp] theorem State.retire_regs : s.retire.regs = s.regs := rfl
@[simp] theorem State.retire_pc : s.retire.pc = s.pc + 1#16 := rfl
@[simp] theorem State.retire_cc : s.retire.cc = s.cc := rfl
@[simp] theorem State.retire_halted : s.retire.halted = s.halted := rfl
@[simp] theorem State.retire_mem : s.retire.mem = s.mem := rfl
@[simp] theorem State.retire_cfg : s.retire.cfg = s.cfg := rfl
@[simp] theorem State.retire_inPort : s.retire.inPort = s.inPort := rfl
@[simp] theorem State.retire_output : s.retire.output = s.output := rfl

/-! ### `State.callTo` -/

@[simp] theorem State.callTo_pc (target : Word) : (s.callTo target).pc = target := rfl
@[simp] theorem State.callTo_cc (target : Word) : (s.callTo target).cc = condOf (s.pc + 1#16) := rfl
@[simp] theorem State.callTo_halted (target : Word) : (s.callTo target).halted = s.halted := rfl
@[simp] theorem State.callTo_mem (target : Word) : (s.callTo target).mem = s.mem := rfl
@[simp] theorem State.callTo_cfg (target : Word) : (s.callTo target).cfg = s.cfg := rfl
@[simp] theorem State.callTo_inPort (target : Word) : (s.callTo target).inPort = s.inPort := rfl
@[simp] theorem State.callTo_output (target : Word) : (s.callTo target).output = s.output := rfl

/-! ### `State.emit` -/

@[simp] theorem State.emit_regs (w : PortWrite) : (s.emit w).regs = s.regs := rfl
@[simp] theorem State.emit_pc (w : PortWrite) : (s.emit w).pc = s.pc := rfl
@[simp] theorem State.emit_cc (w : PortWrite) : (s.emit w).cc = s.cc := rfl
@[simp] theorem State.emit_halted (w : PortWrite) : (s.emit w).halted = s.halted := rfl
@[simp] theorem State.emit_mem (w : PortWrite) : (s.emit w).mem = s.mem := rfl
@[simp] theorem State.emit_cfg (w : PortWrite) : (s.emit w).cfg = s.cfg := rfl
@[simp] theorem State.emit_inPort (w : PortWrite) : (s.emit w).inPort = s.inPort := rfl
@[simp] theorem State.emit_output (w : PortWrite) : (s.emit w).output = s.output ++ [w] := rfl

/-! ### `State.halt` -/

@[simp] theorem State.halt_regs : s.halt.regs = s.regs := rfl
@[simp] theorem State.halt_pc : s.halt.pc = s.pc + 1#16 := rfl
@[simp] theorem State.halt_cc : s.halt.cc = s.cc := rfl
@[simp] theorem State.halt_halted : s.halt.halted = true := rfl
@[simp] theorem State.halt_mem : s.halt.mem = s.mem := rfl
@[simp] theorem State.halt_cfg : s.halt.cfg = s.cfg := rfl
@[simp] theorem State.halt_inPort : s.halt.inPort = s.inPort := rfl
@[simp] theorem State.halt_output : s.halt.output = s.output := rfl

/-! ### `State.placeAtPc` -/

@[simp] theorem State.placeAtPc_regs (w : Word) : (s.placeAtPc w).regs = s.regs := rfl
@[simp] theorem State.placeAtPc_pc (w : Word) : (s.placeAtPc w).pc = s.pc := rfl
@[simp] theorem State.placeAtPc_cc (w : Word) : (s.placeAtPc w).cc = s.cc := rfl
@[simp] theorem State.placeAtPc_halted (w : Word) : (s.placeAtPc w).halted = false := rfl
@[simp] theorem State.placeAtPc_mem (w : Word) : (s.placeAtPc w).mem = s.mem.write s.pc.toNat w := rfl
@[simp] theorem State.placeAtPc_cfg (w : Word) : (s.placeAtPc w).cfg = s.cfg := rfl
@[simp] theorem State.placeAtPc_inPort (w : Word) : (s.placeAtPc w).inPort = s.inPort := rfl
@[simp] theorem State.placeAtPc_output (w : Word) : (s.placeAtPc w).output = s.output := rfl

/-! ### `State.resetAt` -/

section

variable (c : Config) (start : Option Word) (port : InPort)

@[simp] theorem State.resetAt_pc : (State.resetAt c start port).pc = start.getD c.resetPc := rfl
@[simp] theorem State.resetAt_cc : (State.resetAt c start port).cc = .z := rfl
@[simp] theorem State.resetAt_halted : (State.resetAt c start port).halted = false := rfl
@[simp] theorem State.resetAt_mem : (State.resetAt c start port).mem = [] := rfl
@[simp] theorem State.resetAt_cfg : (State.resetAt c start port).cfg = c := rfl
@[simp] theorem State.resetAt_inPort : (State.resetAt c start port).inPort = port := rfl
@[simp] theorem State.resetAt_output : (State.resetAt c start port).output = [] := rfl

end

/-! ### `State.hostReset` -/

@[simp] theorem State.hostReset_pc (start : Option Word) : (s.hostReset start).pc = start.getD s.cfg.resetPc := rfl
@[simp] theorem State.hostReset_cc (start : Option Word) : (s.hostReset start).cc = .z := rfl
@[simp] theorem State.hostReset_halted (start : Option Word) : (s.hostReset start).halted = false := rfl
@[simp] theorem State.hostReset_mem (start : Option Word) : (s.hostReset start).mem = [] := rfl
@[simp] theorem State.hostReset_cfg (start : Option Word) : (s.hostReset start).cfg = s.cfg := rfl
@[simp] theorem State.hostReset_inPort (start : Option Word) : (s.hostReset start).inPort = s.inPort := rfl
@[simp] theorem State.hostReset_output (start : Option Word) : (s.hostReset start).output = s.output := rfl

/-! ### Registers -/

@[simp] theorem State.nextPc_eq : s.nextPc = s.pc + 1#16 := rfl

/-- Two states with the same registers read the same. -/
theorem State.readReg_congr {s t : State} (h : t.regs = s.regs) (r : RegAddr) : t.readReg r = s.readReg r := by
  simp [State.readReg, h]

@[simp] theorem State.readReg_setMem (m : Memory) (r : RegAddr) : (s.setMem m).readReg r = s.readReg r := rfl
@[simp] theorem State.readReg_setPort (port : InPort) (r : RegAddr) : (s.setPort port).readReg r = s.readReg r := rfl
@[simp] theorem State.readReg_setHalted (h : Bool) (r : RegAddr) : (s.setHalted h).readReg r = s.readReg r := rfl
@[simp] theorem State.readReg_setPc (a : Word) (r : RegAddr) : (s.setPc a).readReg r = s.readReg r := rfl
@[simp] theorem State.readReg_retire (r : RegAddr) : s.retire.readReg r = s.readReg r := rfl
@[simp] theorem State.readReg_emit (w : PortWrite) (r : RegAddr) : (s.emit w).readReg r = s.readReg r := rfl
@[simp] theorem State.readReg_halt (r : RegAddr) : s.halt.readReg r = s.readReg r := rfl
@[simp] theorem State.readReg_placeAtPc (w : Word) (r : RegAddr) : (s.placeAtPc w).readReg r = s.readReg r := rfl

/-- A register write seen by a read of any register. -/
@[simp] theorem State.readReg_writeReg (r q : RegAddr) (v : Word) :
    (s.writeReg r v).readReg q = if q = r then v else s.readReg q := by
  simp only [State.writeReg, State.readReg, Vector.get_eq_getElem, Vector.getElem_set]
  by_cases h : q = r
  · simp [h]
  · have : r.val ≠ q.val := fun e => h (Fin.ext e.symm)
    simp [h, this]

/-- A preset seen by a read of any register. -/
@[simp] theorem State.readReg_setReg (r q : RegAddr) (v : Word) :
    (s.setReg r v).readReg q = if q = r then v else s.readReg q := State.readReg_writeReg s r q v

/-- A subroutine jump seen by a read of any register. -/
@[simp] theorem State.readReg_callTo (target : Word) (q : RegAddr) :
    (s.callTo target).readReg q = if q = linkReg then s.pc + 1#16 else s.readReg q :=
  State.readReg_writeReg s linkReg q (s.pc + 1#16)

/-- Every register reads zero after reset. -/
@[simp] theorem State.readReg_resetAt (c : Config) (start : Option Word) (port : InPort) (r : RegAddr) :
    (State.resetAt c start port).readReg r = 0x0000#16 := by
  simp [State.readReg, State.resetAt, Vector.get_eq_getElem]

/-- The host's reset zeroes the registers of any machine. -/
@[simp] theorem State.readReg_hostReset (start : Option Word) (r : RegAddr) :
    (s.hostReset start).readReg r = 0x0000#16 := State.readReg_resetAt s.cfg start s.inPort r

/-- Two states that read the same in every register have the same register file. -/
theorem State.regs_ext {s t : State} (h : ∀ r, t.readReg r = s.readReg r) : t.regs = s.regs := by
  apply Vector.ext
  intro i hi
  simpa [State.readReg, Vector.get_eq_getElem] using h ⟨i, hi⟩

end Sys2Proof.Machine
end

