-- ==== Sys2Proof/Laws/Ops.lean ====
section
/-! SUPPORT. What each shared operation can do, once: the statements later proofs cite instead of unfolding the
operation. -/

namespace Sys2Proof.Machine

/-- The condition codes computed from a value are those of the value. -/
theorem condOf_is (v : Word) : CondIs (condOf v) v := by
  unfold CondIs condOf
  by_cases h : v.msb = true
  · have : v ≠ 0#16 := by rintro rfl; simp at h
    simp [h, this]
  · by_cases h0 : v = 0#16 <;> simp [h, h0]

/-- Only one value of the condition codes is that of a value. -/
theorem CondIs.eq_condOf {c : Cond} {v : Word} (h : CondIs c v) : c = condOf v := by
  have := condOf_is v
  unfold CondIs at h this
  cases c <;> cases hc : condOf v <;> simp_all

/-- A register write writes exactly one register and sets the condition codes from it. -/
theorem State.writeReg_wrote (s : State) (r : RegAddr) (v : Word) : WroteReg s (s.writeReg r v) r v :=
  ⟨by simp, fun q hq => by simp [hq], condOf_is v⟩

/-- A read answers the word at an in-bounds address. -/
theorem State.memRead_ok {s : State} {a : Word} (h : s.inBounds a) : s.memRead a = .ok (s.mem.read a.toNat) := by
  simp [State.memRead, h]

/-- A read out of bounds fails with its address. -/
theorem State.memRead_error {s : State} {a : Word} (h : ¬ s.inBounds a) :
    s.memRead a = .error (.memoryAddressOutOfBounds a) := by
  simp [State.memRead, h]

/-- Everything a read can answer. -/
theorem State.memRead_cases (s : State) (a : Word) :
    (s.inBounds a ∧ s.memRead a = .ok (s.mem.read a.toNat)) ∨
      (¬ s.inBounds a ∧ s.memRead a = .error (.memoryAddressOutOfBounds a)) := by
  by_cases h : s.inBounds a
  · exact .inl ⟨h, State.memRead_ok h⟩
  · exact .inr ⟨h, State.memRead_error h⟩

/-- A write to an in-bounds address. -/
theorem State.memWrite_ok {s : State} {a : Word} (v : Word) (h : s.inBounds a) :
    s.memWrite a v = .ok (s.setMem (s.mem.write a.toNat v)) := by
  simp [State.memWrite, h]

/-- A write out of bounds fails with its address. -/
theorem State.memWrite_error {s : State} {a : Word} (v : Word) (h : ¬ s.inBounds a) :
    s.memWrite a v = .error (.memoryAddressOutOfBounds a) := by
  simp [State.memWrite, h]

/-- Everything a write can answer. -/
theorem State.memWrite_cases (s : State) (a v : Word) :
    (s.inBounds a ∧ s.memWrite a v = .ok (s.setMem (s.mem.write a.toNat v))) ∨
      (¬ s.inBounds a ∧ s.memWrite a v = .error (.memoryAddressOutOfBounds a)) := by
  by_cases h : s.inBounds a
  · exact .inl ⟨h, State.memWrite_ok v h⟩
  · exact .inr ⟨h, State.memWrite_error v h⟩

@[simp] theorem orFail_ok {α : Type} (v : α) (k : α → Result) : orFail (.ok v) k = k v := rfl
@[simp] theorem orFail_error {α : Type} (f : Fault) (k : α → Result) : orFail (.error f) k = .fault f := rfl

/-- A word written to memory is stored and nothing else changes. -/
theorem Memory.write_stored (m : Memory) (a k : Nat) (v : Word) (h0 : k ≠ 2 * a) (h1 : k ≠ 2 * a + 1) :
    (m.write a v).readByte k = m.readByte k := by
  simp [Memory.readByte_write, h0, h1]

/-- The addresses of a string repeat after 65536 words. -/
theorem State.stringWord_wrap (s : State) (a : Word) (k : Nat) : s.stringWord a (k + 65536) = s.stringWord a k := by
  have : BitVec.ofNat 16 (k + 65536) = BitVec.ofNat 16 k := by
    apply BitVec.eq_of_toNat_eq; simp
  simp [State.stringWord, this]

/-- Everything a string read can answer, with what memory holds in each case. -/
theorem State.readString_cases (s : State) (fuel : Nat) (a : Word) :
    (∃ n, n < fuel ∧ (∀ k ≤ n, s.inBounds (a + BitVec.ofNat 16 k)) ∧ (∀ k < n, s.stringWord a k ≠ 0#16) ∧
        s.stringWord a n = 0#16 ∧
        s.readString fuel a = .ends ((List.range n).map fun k => (s.stringWord a k).extractLsb' 0 8)) ∨
      (∃ n, n < fuel ∧ (∀ k < n, s.inBounds (a + BitVec.ofNat 16 k) ∧ s.stringWord a k ≠ 0#16) ∧
        ¬ s.inBounds (a + BitVec.ofNat 16 n) ∧ s.readString fuel a = .outOfBounds (a + BitVec.ofNat 16 n)) ∨
      ((∀ k < fuel, s.inBounds (a + BitVec.ofNat 16 k) ∧ s.stringWord a k ≠ 0#16) ∧
        s.readString fuel a = .unended) := by
  induction fuel generalizing a with
  | zero => right; right; simp [State.readString]
  | succ fuel ih =>
    have shift : ∀ k, a + 1#16 + BitVec.ofNat 16 k = a + BitVec.ofNat 16 (k + 1) := by
      intro k; rw [BitVec.add_assoc, BitVec.ofNat_add, BitVec.add_comm (1#16)]
    have word : ∀ k, s.stringWord (a + 1#16) k = s.stringWord a (k + 1) := by
      intro k; simp only [State.stringWord, shift]
    have base : a + BitVec.ofNat 16 0 = a := by simp
    have wbase : s.stringWord a 0 = s.mem.read a.toNat := by simp [State.stringWord]
    rcases s.memRead_cases a with ⟨hb, hr⟩ | ⟨hb, hr⟩
    · by_cases hz : s.mem.read a.toNat = 0#16
      · left
        refine ⟨0, by omega, ?_, by omega, by rw [wbase, hz], ?_⟩
        · intro k hk; obtain rfl : k = 0 := by omega
          rwa [base]
        · simp [State.readString, hr, hz]
      · have step : s.readString (fuel + 1) a =
            (s.readString fuel (a + 1#16)).withFirst ((s.mem.read a.toNat).extractLsb' 0 8) := by
          simp [State.readString, hr, hz]
        have here : ∀ {P : Nat → Prop} {n : Nat}, P 0 → (∀ k < n, P (k + 1)) → ∀ k < n + 1, P k := by
          intro P n h0 h k hk
          cases k with
          | zero => exact h0
          | succ k => exact h k (by omega)
        have h0 : s.inBounds (a + BitVec.ofNat 16 0) ∧ s.stringWord a 0 ≠ 0#16 := by rw [base, wbase]; exact ⟨hb, hz⟩
        rcases ih (a + 1#16) with ⟨n, hn, hin, hne, hend, he⟩ | ⟨n, hn, hall, hout, he⟩ | ⟨hall, he⟩
        · left
          refine ⟨n + 1, by omega, ?_, ?_, by rw [← word]; exact hend, ?_⟩
          · intro k hk
            exact here (P := fun k => s.inBounds (a + BitVec.ofNat 16 k)) (n := n + 1) h0.1
              (fun k hk => by rw [← shift]; exact hin k (by omega)) k (by omega)
          · exact here (P := fun k => s.stringWord a k ≠ 0#16) h0.2 (fun k hk => by rw [← word]; exact hne k hk)
          · rw [step, he]
            simp [StringRead.withFirst, List.range_succ_eq_map, List.map_map, Function.comp_def, word, wbase]
        · right; left
          refine ⟨n + 1, by omega, ?_, by rw [← shift]; exact hout, ?_⟩
          · exact here (P := fun k => s.inBounds (a + BitVec.ofNat 16 k) ∧ s.stringWord a k ≠ 0#16) h0
              (fun k hk => by rw [← shift, ← word]; exact hall k hk)
          · rw [step, he, StringRead.withFirst, shift]
        · right; right
          refine ⟨?_, by rw [step, he, StringRead.withFirst]⟩
          exact here (P := fun k => s.inBounds (a + BitVec.ofNat 16 k) ∧ s.stringWord a k ≠ 0#16) h0
            (fun k hk => by rw [← shift, ← word]; exact hall k hk)
    · right; left
      exact ⟨0, by omega, by omega, by rwa [base], by simp [State.readString, hr]⟩

end Sys2Proof.Machine
end

