-- ==== Sys2Proof/Laws/Exec.lean ====
section
/-! SUPPORT. Everything one instruction can do, and everything one step can do, said once. -/

namespace Sys2Proof.Machine

/-- What a load can answer. -/
theorem loadFrom_cases (s : State) (dr : RegAddr) (ea : Word) :
    (s.inBounds ea ∧ loadFrom s dr ea = .next (s.writeReg dr (s.mem.read ea.toNat)).retire) ∨
      (¬ s.inBounds ea ∧ loadFrom s dr ea = .fault (.memoryAddressOutOfBounds ea)) := by
  rcases s.memRead_cases ea with ⟨h, e⟩ | ⟨h, e⟩ <;> simp [loadFrom, e, h]

/-- What a store can answer. -/
theorem storeTo_cases (s : State) (sr : RegAddr) (ea : Word) :
    (s.inBounds ea ∧ storeTo s sr ea = .next (s.setMem (s.mem.write ea.toNat (s.readReg sr))).retire) ∨
      (¬ s.inBounds ea ∧ storeTo s sr ea = .fault (.memoryAddressOutOfBounds ea)) := by
  rcases s.memWrite_cases ea (s.readReg sr) with ⟨h, e⟩ | ⟨h, e⟩ <;> simp [storeTo, e, h]

/-- What the read of a pointer can lead to. -/
theorem indirect_cases (s : State) (off : Word) (k : Word → Result) :
    (s.inBounds (s.pcRelative off) ∧
        orFail (s.indirect off) k = k (s.mem.read (s.pcRelative off).toNat)) ∨
      (¬ s.inBounds (s.pcRelative off) ∧
        orFail (s.indirect off) k = .fault (.memoryAddressOutOfBounds (s.pcRelative off))) := by
  rcases s.memRead_cases (s.pcRelative off) with ⟨h, e⟩ | ⟨h, e⟩ <;> simp [State.indirect, e, h]

/-- A store that completes stored its register's word at its address, which is in bounds, and no other byte. -/
theorem storeTo_stored {s t : State} {sr : RegAddr} {ea : Word} (h : storeTo s sr ea = .next t) :
    s.inBounds ea ∧ StoredWord s t ea (s.readReg sr) := by
  rcases storeTo_cases s sr ea with ⟨hb, e⟩ | ⟨-, e⟩ <;> rw [e] at h <;> cases h
  exact ⟨hb, by simp, fun k h0 h1 => Memory.write_stored _ _ _ _ h0 h1⟩

/-- What a table TRAP can answer. -/
theorem tableTrap_cases (s : State) (v : TrapVector) :
    (s.inBounds (s.trapEntry v) ∧
        tableTrap v s = .next (s.callTo (s.mem.read (s.trapEntry v).toNat))) ∨
      (¬ s.inBounds (s.trapEntry v) ∧ tableTrap v s = .fault (.memoryAddressOutOfBounds (s.trapEntry v))) := by
  rcases s.memRead_cases (s.trapEntry v) with ⟨h, e⟩ | ⟨h, e⟩ <;> simp [tableTrap, e, h]

/-- What character-in can answer. -/
theorem charIn_cases (s : State) :
    (∃ c rest, s.inPort.readChar = .char c rest ∧
        charIn s = .next ((s.setPort rest).writeReg 0 (c.setWidth 16)).retire) ∨
      (∃ rest, s.inPort.readChar = .endOfInput rest ∧ s.cfg.eofPolicy = .stuck ∧ charIn s = .fault .stuckEndOfInput) ∨
      (∃ rest, s.inPort.readChar = .endOfInput rest ∧ s.cfg.eofPolicy = .zero ∧
        charIn s = .next ((s.setPort rest).writeReg 0 0#16).retire) ∨
      (∃ rest, s.inPort.readChar = .endOfInput rest ∧ s.cfg.eofPolicy = .halt ∧
        charIn s = .next (s.setPort rest).halt) ∨
      (s.inPort.readChar = .never ∧ charIn s = .fault .stuckNoInput) := by
  cases h : s.inPort.readChar <;> cases hp : s.cfg.eofPolicy <;> simp [charIn, endOfInput, h, hp]

/-- What string-out can answer. -/
theorem stringOut_cases (s : State) :
    (∃ cs, s.readString stringFuel (s.readReg 0) = .ends cs ∧ stringOut s = .next (s.emit (.string cs)).retire) ∨
      (∃ a, s.readString stringFuel (s.readReg 0) = .outOfBounds a ∧
        stringOut s = .fault (.memoryAddressOutOfBounds a)) ∨
      (s.readString stringFuel (s.readReg 0) = .unended ∧ stringOut s = .fault .stuckStringOut) := by
  cases h : s.readString stringFuel (s.readReg 0) <;> simp [stringOut, h]

/-- A TRAP dispatches on its vector. -/
theorem exec_trap {i : Instr} {v : TrapVector} (h : trapVectorOf i = some v) (s : State) :
    exec i s = dispatchTrap v s := by
  cases i <;> simp_all [trapVectorOf] <;> subst h <;> rfl

/-- A built-in TRAP runs its routine. -/
theorem exec_builtin {i : Instr} {s : State} {b : Builtin} (h : s.builtinOf i = some b) :
    exec i s = runBuiltin b s := by
  obtain ⟨v, hv, hb⟩ := Option.bind_eq_some_iff.mp h
  rw [exec_trap hv, dispatchTrap, hb]

/-- A TRAP that no routine serves goes through the table. -/
theorem exec_tableTrap {i : Instr} {s : State} {v : TrapVector} (hv : trapVectorOf i = some v)
    (h : s.builtinOf i = none) : exec i s = tableTrap v s := by
  have : s.cfg.builtins.lookup v = none := by simpa [State.builtinOf, hv] using h
  rw [exec_trap hv, dispatchTrap, this]

/-- Everything a TRAP that completes can do. -/
theorem exec_trap_cases {i : Instr} {s t : State} {v : TrapVector} (hv : trapVectorOf i = some v)
    (h : exec i s = .next t) :
    (s.builtinOf i = none ∧ t = s.callTo (s.mem.read (s.trapEntry v).toNat)) ∨
      (s.builtinOf i = some .charIn ∧ s.halts i = false ∧ ∃ port x, t = ((s.setPort port).writeReg 0 x).retire) ∨
      (s.builtinOf i = some .charOut ∧ ∃ w, t = (s.emit w).retire) ∨
      (s.builtinOf i = some .stringOut ∧ ∃ w, t = (s.emit w).retire) ∨
      (s.halts i = true ∧ ∃ port, (port = s.inPort ∨ s.builtinOf i = some .charIn) ∧ t = (s.setPort port).halt) := by
  cases hb : s.builtinOf i with
  | none =>
    rw [exec_tableTrap hv hb] at h
    rcases tableTrap_cases s v with ⟨-, e⟩ | ⟨-, e⟩ <;> simp_all
  | some b =>
    rw [exec_builtin hb] at h
    cases b with
    | charIn =>
      have hs : charIn s = .next t := h
      rcases charIn_cases s with ⟨c, rest, hr, e⟩ | ⟨rest, hr, hp, e⟩ | ⟨rest, hr, hp, e⟩ |
          ⟨rest, hr, hp, e⟩ | ⟨hr, e⟩ <;>
        simp only [e, Host.Outcome.next.injEq, reduceCtorEq] at hs <;> subst hs
      · exact .inr (.inl ⟨rfl, by simp [State.halts, InPort.atEnd, hb, hr], rest, _, rfl⟩)
      · exact .inr (.inl ⟨rfl, by simp [State.halts, hb, hp], rest, _, rfl⟩)
      · exact .inr (.inr (.inr (.inr ⟨by simp [State.halts, InPort.atEnd, hb, hr, hp], rest, .inr rfl, rfl⟩)))
    | charOut => exact .inr (.inr (.inl ⟨rfl, _, (Host.Outcome.next.inj h).symm⟩))
    | stringOut =>
      have hs : stringOut s = .next t := h
      rcases stringOut_cases s with ⟨cs, -, e⟩ | ⟨a, -, e⟩ | ⟨-, e⟩ <;>
        simp only [e, Host.Outcome.next.injEq, reduceCtorEq] at hs
      exact .inr (.inr (.inr (.inl ⟨rfl, _, hs.symm⟩)))
    | haltMachine =>
      exact .inr (.inr (.inr (.inr ⟨by simp [State.halts, hb], s.inPort, .inl rfl, (Host.Outcome.next.inj h).symm⟩)))

/-- Everything an instruction that completes can do: write one register and go on, jump to a subroutine, set the PC,
store one word, take a character, emit, or halt. -/
theorem exec_cases {i : Instr} {s t : State} (h : exec i s = .next t) :
    (∃ r v, s.destination i = some r ∧ s.mayTransfer i = false ∧ t = (s.writeReg r v).retire) ∨
      (∃ a, s.destination i = some linkReg ∧ s.mayTransfer i = true ∧ t = s.callTo a) ∨
      (∃ a, s.destination i = none ∧ s.mayTransfer i = true ∧ t = s.setPc a) ∨
      (∃ a v, isStore i = true ∧ s.destination i = none ∧ s.mayTransfer i = false ∧ s.inBounds a ∧
        t = (s.setMem (s.mem.write a.toNat v)).retire) ∨
      (∃ port v, s.builtinOf i = some .charIn ∧ s.destination i = some 0 ∧ s.mayTransfer i = false ∧
        t = ((s.setPort port).writeReg 0 v).retire) ∨
      (∃ w, (s.builtinOf i = some .charOut ∨ s.builtinOf i = some .stringOut) ∧ s.destination i = none ∧
        s.mayTransfer i = false ∧ t = (s.emit w).retire) ∨
      (∃ port, (port = s.inPort ∨ s.builtinOf i = some .charIn) ∧ s.halts i = true ∧ s.destination i = none ∧
        s.mayTransfer i = false ∧ t = (s.setPort port).halt) := by
  by_cases hv : ∃ v, trapVectorOf i = some v
  · obtain ⟨v, hv⟩ := hv
    have dest : s.destination i = if s.isTableTrap i then some linkReg
        else if s.builtinOf i == some .charIn && !s.halts i then some 0 else none := by
      cases i <;> simp_all [trapVectorOf, State.destination]
    have trans : s.mayTransfer i = s.isTableTrap i := by
      cases i <;> simp_all [trapVectorOf, State.mayTransfer]
    have table : s.isTableTrap i = (s.builtinOf i).isNone := by simp [State.isTableTrap, hv]
    rw [table] at dest trans
    rcases exec_trap_cases hv h with ⟨hb, e⟩ | ⟨hb, hh, port, x, e⟩ | ⟨hb, w, e⟩ | ⟨hb, w, e⟩ | ⟨hh, port, hport, e⟩
    · exact .inr (.inl ⟨_, by simp [dest, hb], by simp [trans, hb], e⟩)
    · exact .inr (.inr (.inr (.inr (.inl ⟨port, x, hb, by simp [dest, hb, hh], by simp [trans, hb], e⟩))))
    · exact .inr (.inr (.inr (.inr (.inr (.inl ⟨w, .inl hb, by simp [dest, hb], by simp [trans, hb], e⟩)))))
    · exact .inr (.inr (.inr (.inr (.inr (.inl ⟨w, .inr hb, by simp [dest, hb], by simp [trans, hb], e⟩)))))
    · have hb : (s.builtinOf i).isNone = false := by
        cases hb : s.builtinOf i <;> simp_all [State.halts]
      exact .inr (.inr (.inr (.inr (.inr (.inr ⟨port, hport, hh, by simp [dest, hb, hh], by simp [trans, hb], e⟩)))))
  · have load : ∀ {dr ea}, s.destination i = some dr → s.mayTransfer i = false → loadFrom s dr ea = .next t →
        (∃ r v, s.destination i = some r ∧ s.mayTransfer i = false ∧ t = (s.writeReg r v).retire) := by
      intro dr ea hd ht h
      rcases loadFrom_cases s dr ea with ⟨-, e⟩ | ⟨-, e⟩ <;> simp only [e, Host.Outcome.next.injEq, reduceCtorEq] at h
      exact ⟨dr, _, hd, ht, h.symm⟩
    have store : ∀ {sr ea}, storeTo s sr ea = .next t →
        (∃ a v, s.inBounds a ∧ t = (s.setMem (s.mem.write a.toNat v)).retire) := by
      intro sr ea h
      rcases storeTo_cases s sr ea with ⟨hb, e⟩ | ⟨-, e⟩ <;> simp only [e, Host.Outcome.next.injEq, reduceCtorEq] at h
      exact ⟨ea, _, hb, h.symm⟩
    have stored : isStore i = true → (∃ a v, s.inBounds a ∧ t = (s.setMem (s.mem.write a.toNat v)).retire) →
        (∃ a v, isStore i = true ∧ s.destination i = none ∧ s.mayTransfer i = false ∧ s.inBounds a ∧
          t = (s.setMem (s.mem.write a.toNat v)).retire) := by
      rintro hi ⟨a, v, hb, e⟩
      refine ⟨a, v, hi, ?_, ?_, hb, e⟩ <;>
        cases i <;> simp_all [isStore, State.destination, State.mayTransfer, State.isTableTrap, trapVectorOf, State.builtinOf]
    have plain : ∀ {r v}, operate s r v = .next t → t = (s.writeReg r v).retire := fun h => (Host.Outcome.next.inj h).symm
    cases i with
    | trapTable v => exact absurd ⟨v, rfl⟩ hv
    | trapGetc => exact absurd ⟨_, rfl⟩ hv
    | trapOut => exact absurd ⟨_, rfl⟩ hv
    | trapPuts => exact absurd ⟨_, rfl⟩ hv
    | trapHalt => exact absurd ⟨_, rfl⟩ hv
    | illegal1000 => cases h
    | reserved1101 => cases h
    | addReg dr _ _ => exact .inl ⟨dr, _, rfl, rfl, plain h⟩
    | addImm dr _ _ => exact .inl ⟨dr, _, rfl, rfl, plain h⟩
    | andReg dr _ _ => exact .inl ⟨dr, _, rfl, rfl, plain h⟩
    | andImm dr _ _ => exact .inl ⟨dr, _, rfl, rfl, plain h⟩
    | notReg dr _ => exact .inl ⟨dr, _, rfl, rfl, plain h⟩
    | lea dr _ => exact .inl ⟨dr, _, rfl, rfl, (Host.Outcome.next.inj h).symm⟩
    | ld dr _ => exact .inl (load rfl rfl h)
    | ldr dr _ _ => exact .inl (load rfl rfl h)
    | ldi dr off =>
      rcases indirect_cases s off (loadFrom s dr) with ⟨-, e⟩ | ⟨-, e⟩
      · exact .inl (load rfl rfl (e.symm.trans h))
      · exact absurd (e.symm.trans h) (by simp)
    | st sr _ => exact .inr (.inr (.inr (.inl (stored rfl (store h)))))
    | str sr _ _ => exact .inr (.inr (.inr (.inl (stored rfl (store h)))))
    | sti sr off =>
      rcases indirect_cases s off (storeTo s sr) with ⟨-, e⟩ | ⟨-, e⟩
      · exact .inr (.inr (.inr (.inl (stored rfl (store (e.symm.trans h))))))
      · exact absurd (e.symm.trans h) (by simp)
    | jsr off => exact .inr (.inl ⟨_, rfl, rfl, (Host.Outcome.next.inj h).symm⟩)
    | jsrr base => exact .inr (.inl ⟨_, rfl, rfl, (Host.Outcome.next.inj h).symm⟩)
    | jmp base => exact .inr (.inr (.inl ⟨_, rfl, rfl, (Host.Outcome.next.inj h).symm⟩))
    | br n z p off =>
      refine .inr (.inr (.inl ⟨if branchTaken n z p s.cc then s.pcRelative off else s.nextPc, rfl, rfl, ?_⟩))
      rw [← Host.Outcome.next.inj h]
      split <;> rfl

/-- Every way an instruction can stop: an illegal opcode, an access out of bounds, or a built-in routine that never
ends. -/
theorem exec_fault_cases {i : Instr} {s : State} {f : Fault} (h : exec i s = .fault f) :
    (f = .illegalOpcode ∧ i.isIllegal = true) ∨
      (∃ a, f = .memoryAddressOutOfBounds a ∧ ¬ s.inBounds a ∧ s.accessesMemory i = true) ∨
      (s.builtinOf i = some .charIn ∧ (f = .stuckEndOfInput ∨ f = .stuckNoInput)) ∨
      (s.builtinOf i = some .stringOut ∧ f = .stuckStringOut) := by
  have load : ∀ {dr ea}, s.accessesMemory i = true → loadFrom s dr ea = .fault f →
      ∃ a, f = .memoryAddressOutOfBounds a ∧ ¬ s.inBounds a ∧ s.accessesMemory i = true := by
    intro dr ea hi h
    rcases loadFrom_cases s dr ea with ⟨-, e⟩ | ⟨hb, e⟩ <;> simp only [e, Host.Outcome.fault.injEq, reduceCtorEq] at h
    exact ⟨ea, h.symm, hb, hi⟩
  have store : ∀ {sr ea}, s.accessesMemory i = true → storeTo s sr ea = .fault f →
      ∃ a, f = .memoryAddressOutOfBounds a ∧ ¬ s.inBounds a ∧ s.accessesMemory i = true := by
    intro sr ea hi h
    rcases storeTo_cases s sr ea with ⟨-, e⟩ | ⟨hb, e⟩ <;> simp only [e, Host.Outcome.fault.injEq, reduceCtorEq] at h
    exact ⟨ea, h.symm, hb, hi⟩
  by_cases hv : ∃ v, trapVectorOf i = some v
  · obtain ⟨v, hv⟩ := hv
    have acc : s.accessesMemory i = ((s.builtinOf i).isNone || s.builtinOf i == some .stringOut) := by
      cases i <;> simp_all [trapVectorOf, State.accessesMemory, State.isTableTrap]
    cases hb : s.builtinOf i with
    | none =>
      rw [exec_tableTrap hv hb] at h
      rcases tableTrap_cases s v with ⟨-, e⟩ | ⟨hn, e⟩ <;> simp only [e, Host.Outcome.fault.injEq, reduceCtorEq] at h
      exact .inr (.inl ⟨_, h.symm, hn, by simp [acc, hb]⟩)
    | some b =>
      rw [exec_builtin hb] at h
      cases b with
      | charIn =>
        have hs : charIn s = .fault f := h
        rcases charIn_cases s with ⟨_, _, -, e⟩ | ⟨_, -, -, e⟩ | ⟨_, -, -, e⟩ | ⟨_, -, -, e⟩ | ⟨-, e⟩ <;>
          simp only [e, Host.Outcome.fault.injEq, reduceCtorEq] at hs
        · exact .inr (.inr (.inl ⟨rfl, .inl hs.symm⟩))
        · exact .inr (.inr (.inl ⟨rfl, .inr hs.symm⟩))
      | charOut => cases h
      | haltMachine => cases h
      | stringOut =>
        have hs : stringOut s = .fault f := h
        rcases stringOut_cases s with ⟨cs, -, e⟩ | ⟨a, hr, e⟩ | ⟨-, e⟩ <;>
          simp only [e, Host.Outcome.fault.injEq, reduceCtorEq] at hs
        · refine .inr (.inl ⟨a, hs.symm, ?_, by simp [acc, hb]⟩)
          rcases s.readString_cases stringFuel (s.readReg 0) with ⟨n, -, -, -, -, e'⟩ | ⟨n, -, -, hn, e'⟩ | ⟨-, e'⟩ <;>
            rw [e'] at hr <;> cases hr
          exact hn
        · exact .inr (.inr (.inr ⟨rfl, hs.symm⟩))
  · cases i with
    | trapTable v => exact absurd ⟨v, rfl⟩ hv
    | trapGetc => exact absurd ⟨_, rfl⟩ hv
    | trapOut => exact absurd ⟨_, rfl⟩ hv
    | trapPuts => exact absurd ⟨_, rfl⟩ hv
    | trapHalt => exact absurd ⟨_, rfl⟩ hv
    | illegal1000 => exact .inl ⟨(Host.Outcome.fault.inj h).symm, rfl⟩
    | reserved1101 => exact .inl ⟨(Host.Outcome.fault.inj h).symm, rfl⟩
    | ld => exact .inr (.inl (load rfl h))
    | ldr => exact .inr (.inl (load rfl h))
    | ldi dr off =>
      rcases indirect_cases s off (loadFrom s dr) with ⟨-, e⟩ | ⟨hb, e⟩
      · exact .inr (.inl (load rfl (e.symm.trans h)))
      · exact .inr (.inl ⟨_, (Host.Outcome.fault.inj (e.symm.trans h)).symm, hb, rfl⟩)
    | st => exact .inr (.inl (store rfl h))
    | str => exact .inr (.inl (store rfl h))
    | sti sr off =>
      rcases indirect_cases s off (storeTo s sr) with ⟨-, e⟩ | ⟨hb, e⟩
      · exact .inr (.inl (store rfl (e.symm.trans h)))
      · exact .inr (.inl ⟨_, (Host.Outcome.fault.inj (e.symm.trans h)).symm, hb, rfl⟩)
    | addReg => cases h
    | addImm => cases h
    | andReg => cases h
    | andImm => cases h
    | notReg => cases h
    | lea => cases h
    | br => cases h
    | jmp => cases h
    | jsr => cases h
    | jsrr => cases h

/-- No instruction is refused. -/
theorem exec_not_refused (i : Instr) (s : State) (r : Refusal) : exec i s ≠ .refused r := by
  have load : ∀ dr ea, loadFrom s dr ea ≠ .refused r := by
    intro dr ea
    rcases loadFrom_cases s dr ea with ⟨-, e⟩ | ⟨-, e⟩ <;> simp [e]
  have store : ∀ sr ea, storeTo s sr ea ≠ .refused r := by
    intro sr ea
    rcases storeTo_cases s sr ea with ⟨-, e⟩ | ⟨-, e⟩ <;> simp [e]
  have trap : ∀ v, dispatchTrap v s ≠ .refused r := by
    intro v
    unfold dispatchTrap
    cases s.cfg.builtins.lookup v with
    | none => rcases tableTrap_cases s v with ⟨-, e⟩ | ⟨-, e⟩ <;> simp [e]
    | some b =>
      cases b with
      | charIn =>
        show charIn s ≠ .refused r
        rcases charIn_cases s with ⟨_, _, -, e⟩ | ⟨_, -, -, e⟩ | ⟨_, -, -, e⟩ | ⟨_, -, -, e⟩ | ⟨-, e⟩ <;> simp [e]
      | stringOut =>
        show stringOut s ≠ .refused r
        rcases stringOut_cases s with ⟨cs, -, e⟩ | ⟨a, -, e⟩ | ⟨-, e⟩ <;> simp [e]
      | charOut => simp [runBuiltin, charOut]
      | haltMachine => simp [runBuiltin]
  cases i with
  | ld => exact load _ _
  | ldr => exact load _ _
  | st => exact store _ _
  | str => exact store _ _
  | ldi dr off =>
    rcases indirect_cases s off (loadFrom s dr) with ⟨-, e⟩ | ⟨-, e⟩
    · exact fun h => load _ _ (e.symm.trans h)
    · exact fun h => absurd (e.symm.trans h) (by simp)
  | sti sr off =>
    rcases indirect_cases s off (storeTo s sr) with ⟨-, e⟩ | ⟨-, e⟩
    · exact fun h => store _ _ (e.symm.trans h)
    · exact fun h => absurd (e.symm.trans h) (by simp)
  | trapTable => exact trap _
  | trapGetc => exact trap _
  | trapOut => exact trap _
  | trapPuts => exact trap _
  | trapHalt => exact trap _
  | addReg => exact nofun
  | addImm => exact nofun
  | andReg => exact nofun
  | andImm => exact nofun
  | notReg => exact nofun
  | lea => exact nofun
  | br => exact nofun
  | jmp => exact nofun
  | jsr => exact nofun
  | jsrr => exact nofun
  | illegal1000 => exact nofun
  | reserved1101 => exact nofun

/-- What one step that completes did: nothing, while halted; else the fetched instruction. -/
theorem step_cases {s t : State} (h : step s = .next t) :
    (s.halted = true ∧ t = s) ∨ (s.halted = false ∧ ∃ i, s.fetch = .ok i ∧ exec i s = .next t) := by
  unfold step at h
  cases hs : s.halted with
  | true => exact .inl ⟨rfl, by simpa [hs] using h.symm⟩
  | false =>
    cases hf : s.fetch with
    | error f => simp [hs, hf] at h
    | ok i => exact .inr ⟨rfl, i, rfl, by simpa [hs, hf] using h⟩

/-- A step from a state that is not halted and whose PC is in bounds. -/
theorem step_inBounds {s : State} (h : s.halted = false) (hb : s.inBounds s.pc) :
    step s = exec (decode (s.mem.read s.pc.toNat)) s := by
  have : s.fetch = .ok (decode (s.mem.read s.pc.toNat)) := by unfold State.fetch; rw [State.memRead_ok hb]
  unfold step
  rw [this]
  simp [h]

/-- A step from a state that is not halted and whose PC is out of bounds. -/
theorem step_outOfBounds {s : State} (h : s.halted = false) (hb : ¬ s.inBounds s.pc) :
    step s = .fault (.memoryAddressOutOfBounds s.pc) := by
  have : s.fetch = .error (.memoryAddressOutOfBounds s.pc) := by unfold State.fetch; rw [State.memRead_error hb]
  unfold step
  rw [this]
  simp [h]

/-- A step from a halted state. -/
theorem step_halted {s : State} (h : s.halted = true) : step s = .next s := by
  simp [step, h]

end Sys2Proof.Machine
end

