-- ==== Sys2Proof/Laws/PerInstr.lean ====
section
/-! SUPPORT. The per-instruction family `OpcodeField`: the opcode bits of an instruction's word are those of its row of
the opcode map (spec 30_encoding R71, R75). -/

namespace Sys2Proof.Laws.OpcodeField

/-- The opcode of each row (R75); the two illegal rows have theirs too, though no word is built for them (R81). -/
def rowOpcode (i : Instr) : BitVec 4 :=
  match i with
  | .br _ _ _ _ => 0b0000#4
  | .addReg _ _ _ => 0b0001#4
  | .addImm _ _ _ => 0b0001#4
  | .ld _ _ => 0b0010#4
  | .st _ _ => 0b0011#4
  | .jsr _ => 0b0100#4
  | .jsrr _ => 0b0100#4
  | .andReg _ _ _ => 0b0101#4
  | .andImm _ _ _ => 0b0101#4
  | .ldr _ _ _ => 0b0110#4
  | .str _ _ _ => 0b0111#4
  | .illegal1000 => 0b1000#4
  | .notReg _ _ => 0b1001#4
  | .ldi _ _ => 0b1010#4
  | .sti _ _ => 0b1011#4
  | .jmp _ => 0b1100#4
  | .reserved1101 => 0b1101#4
  | .lea _ _ => 0b1110#4
  | .trapTable _ => 0b1111#4
  | .trapGetc => 0b1111#4
  | .trapOut => 0b1111#4
  | .trapPuts => 0b1111#4
  | .trapHalt => 0b1111#4

/-- The word of an instruction, when it has one, carries the instruction's opcode in bits 15:12. -/
def Statement (i : Instr) : Prop := ∀ w, encode i = some w → opcodeOf w = rowOpcode i

theorem opcodeOf_jsr (o : BitVec 4) (u : BitVec 1) (v : BitVec 11) : opcodeOf (o ++ u ++ v) = o := by
  unfold opcodeOf
  grind

theorem opcodeOf_trap (o u : BitVec 4) (v : BitVec 8) : opcodeOf (o ++ u ++ v) = o := by
  unfold opcodeOf
  grind

theorem br (n z p : Bool) (off : Word) : Statement (.br n z p off) := by
  intro w h
  cases h
  unfold opcodeOf
  grind [rowOpcode]

theorem addReg (dr sr1 sr2 : RegAddr) : Statement (.addReg dr sr1 sr2) := by
  intro w h
  cases h
  unfold opcodeOf
  grind [rowOpcode]

theorem addImm (dr sr1 : RegAddr) (imm : Word) : Statement (.addImm dr sr1 imm) := by
  intro w h
  cases h
  unfold opcodeOf
  grind [rowOpcode]

theorem ld (dr : RegAddr) (off : Word) : Statement (.ld dr off) := by
  intro w h
  cases h
  unfold opcodeOf
  grind [rowOpcode]

theorem st (sr : RegAddr) (off : Word) : Statement (.st sr off) := by
  intro w h
  cases h
  unfold opcodeOf
  grind [rowOpcode]

theorem jsr (off : Word) : Statement (.jsr off) := by
  intro w h
  cases h
  exact opcodeOf_jsr ..

theorem jsrr (base : RegAddr) : Statement (.jsrr base) := by
  intro w h
  cases h
  revert base
  decide

theorem andReg (dr sr1 sr2 : RegAddr) : Statement (.andReg dr sr1 sr2) := by
  intro w h
  cases h
  unfold opcodeOf
  grind [rowOpcode]

theorem andImm (dr sr1 : RegAddr) (imm : Word) : Statement (.andImm dr sr1 imm) := by
  intro w h
  cases h
  unfold opcodeOf
  grind [rowOpcode]

theorem ldr (dr base : RegAddr) (off : Word) : Statement (.ldr dr base off) := by
  intro w h
  cases h
  unfold opcodeOf
  grind [rowOpcode]

theorem str (sr base : RegAddr) (off : Word) : Statement (.str sr base off) := by
  intro w h
  cases h
  unfold opcodeOf
  grind [rowOpcode]

theorem illegal1000 : Statement .illegal1000 := by
  intro w h
  cases h

theorem notReg (dr sr : RegAddr) : Statement (.notReg dr sr) := by
  intro w h
  cases h
  unfold opcodeOf
  grind [rowOpcode]

theorem ldi (dr : RegAddr) (off : Word) : Statement (.ldi dr off) := by
  intro w h
  cases h
  unfold opcodeOf
  grind [rowOpcode]

theorem sti (sr : RegAddr) (off : Word) : Statement (.sti sr off) := by
  intro w h
  cases h
  unfold opcodeOf
  grind [rowOpcode]

theorem jmp (base : RegAddr) : Statement (.jmp base) := by
  intro w h
  cases h
  revert base
  decide

theorem reserved1101 : Statement .reserved1101 := by
  intro w h
  cases h

theorem lea (dr : RegAddr) (off : Word) : Statement (.lea dr off) := by
  intro w h
  cases h
  unfold opcodeOf
  grind [rowOpcode]

theorem trapTable (vec : TrapVector) : Statement (.trapTable vec) := by
  intro w h
  cases h
  exact opcodeOf_trap ..

theorem trapGetc : Statement .trapGetc := by
  intro w h
  cases h
  decide

theorem trapOut : Statement .trapOut := by
  intro w h
  cases h
  decide

theorem trapPuts : Statement .trapPuts := by
  intro w h
  cases h
  decide

theorem trapHalt : Statement .trapHalt := by
  intro w h
  cases h
  decide

end Sys2Proof.Laws.OpcodeField
end

