-- ==== Sys2Proof/Tests/Slice0.lean ====
section
/-! SUPPORT. Tests and witnesses. Every expected value is a row of the spec's 95_test_vectors.md or is worked by hand from
the rule named. A `witness_` theorem shows that the hypotheses of the statement it is named after can be met. -/

namespace Sys2Proof.Tests

open Sys2Proof.Machine

/-! ### Helpers -/

/-- A machine with default parameters whose next instruction is `word`, with some registers and memory words. -/
def start (pc word : Word) (cc : Cond) (regs : List (RegAddr × Word)) (words : List (Word × Word)) : State :=
  let fresh := State.resetAt Config.default (some pc) { queued := [], tail := .endOfInput, taken := 0 }
  let loaded := words.foldl (fun s w => s.setMem (s.mem.write w.1.toNat w.2)) (fresh.presetCond cc)
  (regs.foldl (fun s r => s.presetReg r.1 r.2) loaded).placeAtPc word

/-- The machine with another MEM_SIZE. -/
def withSize (s : State) (size : Nat) : State := { s with cfg := { s.cfg with memSize := size } }

/-- The machine with what the I/O port will answer. -/
def withInput (s : State) (cs : List (Option Byte)) (tail : PortTail) : State :=
  s.setPort { queued := cs, tail := tail, taken := 0 }

/-- The machine with another GETC_EOF_POLICY. -/
def withPolicy (s : State) (p : EofPolicy) : State := { s with cfg := { s.cfg with eofPolicy := p } }

/-- One step gives a next state of which this holds. -/
def gives (s : State) (p : State → Bool) : Bool :=
  match step s with
  | .next t => p t
  | _ => false

/-- One step stops with this fault. -/
def stops (s : State) (f : Fault) : Bool :=
  match step s with
  | .fault g => g == f
  | _ => false

/-- The registers, flags and PC after a step. -/
def shows (t : State) (r : RegAddr) (v : Word) (cc : Cond) (pc : Word) : Bool :=
  t.readReg r == v && t.cc == cc && t.pc == pc

/-! ### Well-formedness: an ill-formed term for each check -/

theorem test_wf_accepts : (Instr.addImm 1 0 0xFFF0#16).wf = true ∧ (Instr.br true true true 0x00FF#16).wf = true ∧
    (Instr.ldr 3 2 0xFFE0#16).wf = true ∧ (Instr.jsr 0xFC00#16).wf = true ∧ (Instr.trapTable 0x23#8).wf = true := by
  decide

theorem test_wf_refuses_imm5 : (Instr.addImm 1 0 0x0010#16).wf = false ∧ (Instr.andImm 1 0 0xFFEF#16).wf = false := by
  decide

theorem test_wf_refuses_off6 : (Instr.ldr 3 2 0x0020#16).wf = false ∧ (Instr.str 3 2 0xFFDF#16).wf = false := by
  decide

theorem test_wf_refuses_off9 :
    (Instr.br true false false 0x0100#16).wf = false ∧ (Instr.ld 0 0xFEFF#16).wf = false ∧
      (Instr.st 0 0x0100#16).wf = false ∧ (Instr.ldi 0 0x0100#16).wf = false ∧ (Instr.sti 0 0x8000#16).wf = false ∧
      (Instr.lea 0 0x7FFF#16).wf = false := by
  decide

theorem test_wf_refuses_off11 : (Instr.jsr 0x0400#16).wf = false ∧ (Instr.jsr 0xFBFF#16).wf = false := by decide

theorem test_wf_refuses_vector_with_own_row :
    (Instr.trapTable 0x20#8).wf = false ∧ (Instr.trapTable 0x21#8).wf = false ∧ (Instr.trapTable 0x22#8).wf = false ∧
      (Instr.trapTable 0x25#8).wf = false := by
  decide

/-! ### Decoding: every constructor by a word written out from R73, R75 and R77; 95_test_vectors section 2.2 -/

theorem test_decode_br : decode 0b0000_010_100000000#16 = .br false true false 0xFF00#16 := by decide
theorem test_decode_addReg : decode 0b0001_000_001_0_11_010#16 = .addReg 0 1 2 := by decide
theorem test_decode_addImm : decode 0b0001_001_000_1_10000#16 = .addImm 1 0 0xFFF0#16 := by decide
theorem test_decode_ld : decode 0b0010_000_000001001#16 = .ld 0 0x0009#16 := by decide
theorem test_decode_st : decode 0b0011_100_000000101#16 = .st 4 0x0005#16 := by decide
theorem test_decode_jsr : decode 0b0100_1_11111111111#16 = .jsr 0xFFFF#16 := by decide
theorem test_decode_jsrr : decode 0b0100_0_11_010_111111#16 = .jsrr 2 := by decide
theorem test_decode_andReg : decode 0b0101_000_001_0_00_010#16 = .andReg 0 1 2 := by decide
theorem test_decode_andImm : decode 0b0101_001_001_1_11111#16 = .andImm 1 1 0xFFFF#16 := by decide
theorem test_decode_ldr : decode 0b0110_011_010_111111#16 = .ldr 3 2 0xFFFF#16 := by decide
theorem test_decode_str : decode 0b0111_100_011_000001#16 = .str 4 3 0x0001#16 := by decide
theorem test_decode_illegal1000 : decode 0b1000_101010111100#16 = .illegal1000 := by decide
theorem test_decode_notReg : decode 0b1001_000_001_111111#16 = .notReg 0 1 := by decide
theorem test_decode_ldi : decode 0b1010_001_000000111#16 = .ldi 1 0x0007#16 := by decide
theorem test_decode_sti : decode 0b1011_100_000000010#16 = .sti 4 0x0002#16 := by decide
theorem test_decode_jmp : decode 0b1100_111_000_111111#16 = .jmp 0 := by decide
theorem test_decode_reserved1101 : decode 0b1101_111111111111#16 = .reserved1101 := by decide
theorem test_decode_lea : decode 0b1110_010_000000111#16 = .lea 2 0x0007#16 := by decide
theorem test_decode_trapTable : decode 0b1111_1111_11111111#16 = .trapTable 0xFF#8 := by decide
theorem test_decode_trapGetc : decode 0b1111_0000_00100000#16 = .trapGetc := by decide
theorem test_decode_trapOut : decode 0b1111_0000_00100001#16 = .trapOut := by decide
theorem test_decode_trapPuts : decode 0b1111_0000_00100010#16 = .trapPuts := by decide
theorem test_decode_trapHalt : decode 0b1111_1010_00100101#16 = .trapHalt := by decide

/-- R81: canonical words, among them those of words whose unused bits are not canonical. -/
theorem test_encode_canonical :
    encode (decode 0x105A#16) = some 0x1042#16 ∧ encode (decode 0x9240#16) = some 0x927F#16 ∧
      encode (decode 0xCE3F#16) = some 0xC000#16 ∧ encode (decode 0x46BF#16) = some 0x4080#16 ∧
      encode (decode 0xFFFF#16) = some 0xF0FF#16 ∧ encode (decode 0x8ABC#16) = none := by
  decide

/-- The host's numbering of a row's bits; a word wider than its bits is refused. -/
theorem test_decodeTableWord :
    decodeTableWord 16 0x1220 = some (.addImm 1 0 0x0000#16) ∧ decodeTableWord 16 0x10000 = none ∧
      decodeTableWord 8 0x21 = some (.br false false false 0x0021#16) := by
  decide

/-! ### Operate (95_test_vectors section 2.3) -/

theorem test_addReg_overflow :
    gives (start 0x3000 0x1042 .z [(1, 0x7FFF), (2, 0x0001)] []) (shows · 0 0x8000 .n 0x3001) = true := by decide
theorem test_addReg_doubles : gives (start 0x3000 0x1241 .z [(1, 0x1234)] []) (shows · 1 0x2468 .p 0x3001) = true := by
  decide
theorem test_addImm_source : gives (start 0x3000 0x1220 .z [(0, 0x0005)] []) (shows · 1 0x0005 .p 0x3001) = true := by
  decide
theorem test_addImm_minus16 : gives (start 0x3000 0x1270 .p [(1, 0x0010)] []) (shows · 1 0x0000 .z 0x3001) = true := by
  decide
theorem test_andReg :
    gives (start 0x3000 0x5042 .z [(1, 0xFF0F), (2, 0x0FF0)] []) (shows · 0 0x0F00 .p 0x3001) = true := by decide
theorem test_andImm_extends : gives (start 0x3000 0x5270 .z [(1, 0x1234)] []) (shows · 1 0x1230 .p 0x3001) = true := by
  decide
theorem test_andImm_all : gives (start 0x3000 0x527F .z [(1, 0x8234)] []) (shows · 1 0x8234 .n 0x3001) = true := by
  decide
theorem test_notReg : gives (start 0x3000 0x907F .z [(1, 0x00FF)] []) (shows · 0 0xFF00 .n 0x3001) = true := by decide
theorem test_notReg_low_bits : gives (start 0x3000 0x9240 .z [(1, 0x8000)] []) (shows · 1 0x7FFF .p 0x3001) = true := by
  decide

/-! ### Control transfer (section 2.4) -/

theorem test_br_taken_and_not : gives (start 0x3005 0x03FD .p [] []) (shows · 0 0 .p 0x3003) = true ∧
    gives (start 0x3005 0x03FD .z [] []) (shows · 0 0 .z 0x3006) = true ∧
    gives (start 0x3005 0x0C02 .n [] []) (shows · 0 0 .n 0x3008) = true ∧
    gives (start 0x3005 0x0A02 .z [] []) (shows · 0 0 .z 0x3006) = true := by
  decide
theorem test_br_wraps : gives (start 0xFFFF 0x0E01 .z [] []) (shows · 0 0 .z 0x0001) = true ∧
    gives (start 0xFFFF 0x0000 .z [] []) (shows · 0 0 .z 0x0000) = true := by decide
theorem test_jmp : gives (start 0x3000 0xC1C0 .n [(7, 0x3002)] []) (shows · 7 0x3002 .n 0x3002) = true := by decide
theorem test_jsr : gives (start 0x7FFF 0x4800 .p [] []) (shows · 7 0x8000 .n 0x8000) = true := by decide
theorem test_jsr_back : gives (start 0x3000 0x4C00 .z [] []) (shows · 7 0x3001 .p 0x2C01) = true := by decide
theorem test_jsrr_of_r7 : gives (start 0x8000 0x41C0 .z [(7, 0x1234)] []) (shows · 7 0x8001 .n 0x1234) = true := by
  decide

/-! ### Loads and stores (sections 2.5 and 2.7) -/

theorem test_ld : gives (start 0x3000 0x2009 .z [] [(0x300A, 0x000A)]) (shows · 0 0x000A .p 0x3001) = true ∧
    gives (start 0xFFFF 0x2001 .z [] [(0x0001, 0x0042)]) (shows · 0 0x0042 .p 0x0000) = true := by decide
theorem test_ld_out_of_bounds :
    stops (withSize (start 0x3FFF 0x2000 .p [(0, 7)] []) 0x4000) (.memoryAddressOutOfBounds 0x4000) = true := by decide
theorem test_ldi : gives (start 0x3001 0xA207 .z [] [(0x3009, 0x3100), (0x3100, 0xFFF0)])
    (shows · 1 0xFFF0 .n 0x3002) = true := by decide
theorem test_ldi_pointer_out_of_bounds :
    stops (withSize (start 0x3FFF 0xA1FF .p [(0, 7)] []) 0x4000) (.memoryAddressOutOfBounds 0xA1FF) = true := by decide
theorem test_ldr : gives (start 0x3000 0x66BF .z [(2, 0x300A)] [(0x3009, 0x3100)]) (shows · 3 0x3100 .p 0x3001) = true := by
  decide
theorem test_ldr_out_of_bounds :
    stops (withSize (start 0x3000 0x6280 .n [(1, 0xBEEF), (2, 0x4000)] []) 0x4000) (.memoryAddressOutOfBounds 0x4000) =
      true := by decide
theorem test_lea : gives (start 0x3002 0xE407 .z [] []) (shows · 2 0x300A .p 0x3003) = true := by decide
theorem test_lea_beyond_memory :
    gives (withSize (start 0x3000 0xE0FF .z [] []) 0x3001) (shows · 0 0x3100 .p 0x3001) = true := by decide
theorem test_st : gives (start 0x3005 0x3805 .n [(4, 0xFFFA)] [])
    (fun t => t.mem.read 0x300B == 0xFFFA && shows t 4 0xFFFA .n 0x3006) = true := by decide
theorem test_st_out_of_bounds :
    stops (withSize (start 0x3FFF 0x3000 .p [(0, 7)] []) 0x4000) (.memoryAddressOutOfBounds 0x4000) = true := by decide
theorem test_sti : gives (start 0x3006 0xB802 .n [(4, 0xFFFA)] [(0x3009, 0x3100)])
    (fun t => t.mem.read 0x3100 == 0xFFFA && t.mem.read 0x3009 == 0x3100 && shows t 4 0xFFFA .n 0x3007) = true := by
  decide
theorem test_sti_pointer_out_of_bounds :
    stops (withSize (start 0x3000 0xB000 .p [(0, 7)] [(0x3001, 0x8000)]) 0x4000) (.memoryAddressOutOfBounds 0x8000) =
      true := by decide
theorem test_str : gives (start 0x3000 0x72BF .p [(1, 0x1234)] [])
    (fun t => t.mem.read 0xFFFF == 0x1234 && shows t 2 0 .p 0x3001) = true := by decide
theorem test_str_out_of_bounds :
    stops (withSize (start 0x3000 0x707F .p [(0, 7)] []) 0x4000) (.memoryAddressOutOfBounds 0xFFFF) = true := by decide

/-! ### TRAP and the illegal opcodes (sections 2.6 and 2.7) -/

theorem test_trapTable : gives (start 0x3002 0xFF30 .z [] [(0x0030, 0x0400)]) (shows · 7 0x3003 .p 0x0400) = true ∧
    gives (start 0x3000 0xF023 .z [] []) (shows · 7 0x3001 .p 0x0000) = true := by decide
theorem test_trapTable_out_of_bounds :
    stops ((withSize (start 0x3000 0xF030 .n [(7, 0x1111)] []) 0x4000).moveTrapTable 0x4000)
      (.memoryAddressOutOfBounds 0x4030) = true := by decide
theorem test_trapGetc : gives (withInput (start 0x3000 0xF020 .n [(0, 0x1234), (7, 0x1111)] []) [some 0xFF#8, some 0x41#8] .silent)
    (fun t => shows t 0 0x00FF .p 0x3001 && t.readReg 7 == 0x1111 && t.inPort.queued == [some 0x41#8]) = true := by decide
theorem test_trapGetc_end_of_input :
    stops (start 0x3002 0xF020 .p [(0, 0x1234)] []) .stuckEndOfInput = true ∧
      gives (withPolicy (start 0x3002 0xF020 .p [(0, 0x1234)] []) .zero) (shows · 0 0 .z 0x3003) = true ∧
      gives (withPolicy (start 0x3002 0xF020 .p [(0, 0x1234)] []) .halt)
        (fun t => shows t 0 0x1234 .p 0x3003 && t.halted) = true := by decide
theorem test_trapOut : gives (start 0x3000 0xF021 .n [(0, 0x0141), (7, 0x1111)] [])
    (fun t => t.output == [.char 0x41#8] && shows t 7 0x1111 .n 0x3001) = true := by decide
theorem test_trapPuts :
    gives (start 0x3000 0xF022 .z [(0, 0x3004)] [(0x3004, 0x0141), (0x3005, 0x0100), (0x3006, 0x0042)])
      (fun t => t.output == [.string [0x41#8, 0x00#8, 0x42#8]] && shows t 0 0x3004 .z 0x3001) = true := by decide
theorem test_trapPuts_out_of_bounds :
    stops (withSize (start 0x3000 0xF022 .p [(0, 0x3FFE)] [(0x3FFE, 0x0041), (0x3FFF, 0x0042)]) 0x4000)
      (.memoryAddressOutOfBounds 0x4000) = true := by decide
theorem test_trapHalt : gives (start 0x3006 0xF025 .n [(7, 0x1111)] [])
    (fun t => t.halted && shows t 7 0x1111 .n 0x3007) = true ∧
    outcomeOf (step (start 0x3006 0xF025 .n [] [])) = some .halted := by decide
theorem test_reserved1101 : stops (start 0x3000 0xDFFF .n [(7, 0x1111)] []) .illegalOpcode = true := by decide
theorem test_illegal1000 : stops (start 0x3000 0x8FFF .p [] []) .illegalOpcode = true := by decide

/-- Section 2.7: a fetch out of bounds comes before the opcode is seen. -/
theorem test_fetch_out_of_bounds :
    stops (withSize (start 0x4000 0xD000 .z [] []) 0x4000) (.memoryAddressOutOfBounds 0x4000) = true := by decide

/-- The host's placing of a word runs it as the first instruction after reset (source example S1 with R0 = 0). -/
theorem test_withFetchWord : gives (State.reset.withFetchWord 16 0x1225) (shows · 1 0x0005 .p 0x3001) = true := by decide

/-- R64: from reset with nothing loaded the first word is a branch that is never taken. -/
theorem test_reset_walks : gives State.reset (shows · 0 0 .z 0x3001) = true := by decide

/-! ### Witnesses: the hypotheses of each statement that has some can be met, one clause at a time -/

/-- An answer that is a next state. -/
def completes (r : Result) : Bool :=
  match r with
  | .next _ => true
  | _ => false

theorem completes_iff {r : Result} : completes r = true ↔ ∃ t, r = .next t := by
  cases r <;> simp [completes]

/-- A machine with a 16384-word memory, whose next word is `word`. -/
def small (pc word : Word) (regs : List (RegAddr × Word)) (words : List (Word × Word)) : State :=
  withSize (start pc word .p regs words) 0x4000

/-- A machine with nothing loaded. -/
def plain : State := start 0x3000 0x0000 .z [] []

/-- A memory in which every byte is one. -/
def fullMemory : Memory := (List.range' 0 131072).map fun k => (k, 0x01#8)

theorem readByte_fill (lo n k : Nat) (h : lo ≤ k) (h' : k < lo + n) :
    Memory.readByte ((List.range' lo n).map fun j => (j, 0x01#8)) k = 0x01#8 := by
  induction n generalizing lo with
  | zero => omega
  | succ n ih =>
    rw [List.range'_succ, List.map_cons, Memory.readByte]
    split
    · rfl
    · rename_i hne
      simp only at hne
      exact ih (lo + 1) (by omega) (by omega)

/-- R230 (a): a string-out that never ends. -/
def endless : State := plain.setMem fullMemory

theorem witness_SignExtensionReplicatesSignBit :
    (1 ≤ 5 ∧ 5 ≤ 16 ∧ 4 < 5 ∧ 5 ≤ 5 ∧ 15 < 16) ∧ (1 ≤ 1 ∧ 0 < 1 ∧ 1 ≤ 15) ∧ 16 ≤ 16 := by decide

theorem witness_DecodeFollowsOpcodeMap :
    let op := fun (w : Word) (o : Nat) => w.toNat / 4096 = o
    op 0x01FF 0b0000 ∧ (op 0x105A 0b0001 ∧ Nat.testBit 0x105A 5 = false) ∧
      (op 0x103F 0b0001 ∧ Nat.testBit 0x103F 5 = true) ∧ op 0x2009 0b0010 ∧ op 0x3805 0b0011 ∧
      (op 0x4C00 0b0100 ∧ Nat.testBit 0x4C00 11 = true) ∧ (op 0x46BF 0b0100 ∧ Nat.testBit 0x46BF 11 = false) ∧
      (op 0x5042 0b0101 ∧ Nat.testBit 0x5042 5 = false) ∧ (op 0x527F 0b0101 ∧ Nat.testBit 0x527F 5 = true) ∧
      op 0x6FFF 0b0110 ∧ op 0x7E20 0b0111 ∧ op 0x8ABC 0b1000 ∧ op 0x9240 0b1001 ∧ op 0xA207 0b1010 ∧
      op 0xB802 0b1011 ∧ op 0xCE3F 0b1100 ∧ op 0xDFFF 0b1101 ∧ op 0xE1FF 0b1110 ∧ op 0xFFFF 0b1111 := by
  decide

theorem witness_UnusedBitsAreIgnored :
    0x1042#16 &&& usedBits 0x1042#16 = 0x105A#16 &&& usedBits 0x1042#16 ∧ 0x1042#16 ≠ 0x105A#16 := by decide

theorem witness_DecodeAndEncodeAgree :
    ((Instr.ldr 7 7 0xFFE0#16).wf = true ∧ (Instr.ldr 7 7 0xFFE0#16).isIllegal = false) ∧
      wordWellFormed 0x907F#16 = true ∧ Instr.illegal1000.isIllegal = true ∧ Instr.reserved1101.isIllegal = true := by
  decide

theorem witness_FlagsFollowRegisterWritesOnly :
    ((∃ t, exec (.addImm 7 7 0xFFFF#16) plain = .next t) ∧ plain.destination (.addImm 7 7 0xFFFF#16) = some 7) ∧
      ((∃ t, exec (.str 0 1 0#16) plain = .next t) ∧ plain.destination (.str 0 1 0#16) = none) ∧
      isBranch (.str 0 1 0#16) = false := by
  simp only [← completes_iff]
  decide

theorem witness_BranchTakenWhenMaskMeetsFlags :
    (true = true ∧ (start 0x3000 0 .n [] []).cc = .n) ∧ (true = true ∧ (start 0x3000 0 .z [] []).cc = .z) ∧
      (true = true ∧ (start 0x3000 0 .p [] []).cc = .p) ∧
      ¬ ((false = true ∧ plain.cc = .n) ∨ (false = true ∧ plain.cc = .z) ∨ (true = true ∧ plain.cc = .p)) := by
  decide

theorem witness_ReturnComesBackAfterCall (i : Instr) (h : i ∈ [Instr.jsr 0xFC00#16, .jsrr 7, .trapTable 0xFF#8]) :
    plain.destination i = some linkReg ∧ plain.mayTransfer i = true ∧ ∃ t, exec i plain = .next t ∧
      ∃ u : State, u.readReg 7 = t.readReg 7 := by
  simp only [List.mem_cons, List.not_mem_nil, or_false] at h
  rcases h with rfl | rfl | rfl <;> exact ⟨by decide, by decide, _, rfl, _, rfl⟩

theorem witness_OutOfBoundsTargetFailsAtNextFetch :
    let s := small 0x3000 0xC040 [(1, 0x4000)] []
    s.mayTransfer (.jmp 1) = true ∧ trapVectorOf (.jmp 1) = none ∧ s.halted = false ∧
      ∃ t, exec (.jmp 1) s = .next t ∧ ¬ t.inBounds t.pc :=
  ⟨by decide, by decide, by decide, _, rfl, by decide⟩

theorem witness_LoadDirect : let s := small 0x3FFE 0x2000 [] []
    s.inBounds (s.pc + 1#16 + 0#16) ∧ ¬ s.inBounds (s.pc + 1#16 + 1#16) := by decide

theorem witness_LoadIndirect : let s := small 0x3000 0xA000 [] [(0x3001, 0x3FFF), (0x3002, 0x4000)]
    (s.inBounds (s.pc + 1#16 + 0#16) ∧ s.inBounds (s.mem.read (s.pc + 1#16 + 0#16).toNat)) ∧
      ¬ s.inBounds (s.pc + 1#16 + 0x0FFF#16) ∧
      (s.inBounds (s.pc + 1#16 + 1#16) ∧ ¬ s.inBounds (s.mem.read (s.pc + 1#16 + 1#16).toNat)) := by decide

theorem witness_LoadBaseOffset : let s := small 0x3000 0x62BF [(2, 0x4000)] []
    s.inBounds (s.readReg 2 + 0xFFFF#16) ∧ ¬ s.inBounds (s.readReg 2 + 0#16) := by decide

theorem witness_StoreDirect : let s := small 0x3FFE 0x3000 [] []
    s.inBounds (s.pc + 1#16 + 0#16) ∧ ¬ s.inBounds (s.pc + 1#16 + 1#16) := by decide

theorem witness_StoreIndirect : let s := small 0x3000 0xB000 [] [(0x3001, 0x3FFF), (0x3002, 0x4000)]
    (s.inBounds (s.pc + 1#16 + 0#16) ∧ s.inBounds (s.mem.read (s.pc + 1#16 + 0#16).toNat)) ∧
      ¬ s.inBounds (s.pc + 1#16 + 0x0FFF#16) ∧
      (s.inBounds (s.pc + 1#16 + 1#16) ∧ ¬ s.inBounds (s.mem.read (s.pc + 1#16 + 1#16).toNat)) := by decide

theorem witness_StoreBaseOffset : let s := small 0x3000 0x72BF [(2, 0x4000)] []
    s.inBounds (s.readReg 2 + 0xFFFF#16) ∧ ¬ s.inBounds (s.readReg 2 + 0#16) := by decide

theorem witness_TrapDispatchesOnVector :
    plain.builtinOf .trapOut = some .charOut ∧
      (trapVectorOf (.trapTable 0x23#8) = some 0x23#8 ∧ plain.builtinOf (.trapTable 0x23#8) = none) ∧
      plain.cfg.builtins = Config.default.builtins ∧ (Instr.trapTable 0x26#8).wf = true := by decide

/-- The table's last entry in bounds, and one out of bounds. -/
theorem witness_TableTrapLinksAndJumps :
    (trapVectorOf (.trapTable 0xFF#8) = some 0xFF#8 ∧ plain.builtinOf (.trapTable 0xFF#8) = none ∧
        (withSize plain 256).inBounds 0x00FF#16) ∧
      (withSize plain 255).builtinOf (.trapTable 0xFF#8) = none ∧
        ¬ (withSize plain 255).inBounds (BitVec.ofNat 16 ((withSize plain 255).cfg.trapTableBase.toNat + 255)) := by decide

theorem witness_CharacterInReadsPort :
    plain.builtinOf .trapGetc = some .charIn ∧
      (withInput plain [some 0xFF#8] .silent).inPort.readChar =
        .char 0xFF#8 { queued := [], tail := .silent, taken := 0 } ∧
      ((∃ rest, plain.inPort.readChar = .endOfInput rest) ∧ plain.cfg.eofPolicy = .stuck) ∧
      ((∃ rest, (withPolicy plain .zero).inPort.readChar = .endOfInput rest) ∧ (withPolicy plain .zero).cfg.eofPolicy = .zero) ∧
      ((∃ rest, (withPolicy plain .halt).inPort.readChar = .endOfInput rest) ∧ (withPolicy plain .halt).cfg.eofPolicy = .halt) ∧
      (withInput plain [] .silent).inPort.readChar = .never :=
  ⟨by decide, by decide, ⟨⟨_, rfl⟩, rfl⟩, ⟨⟨_, rfl⟩, rfl⟩, ⟨⟨_, rfl⟩, rfl⟩, rfl⟩

theorem witness_InputPortAnswersInOrder :
    plain.builtinOf .trapGetc = some .charIn ∧ (withInput plain [some 0x41#8] .silent).inPort.queued = [some 0x41#8] ∧
      (withInput plain [none, some 0x41#8] .silent).inPort.queued = [none, some 0x41#8] ∧
      (State.reset.inPort.queued = [] ∧ State.reset.inPort.tail = .unlisted) ∧
      (plain.inPort.queued = [] ∧ plain.inPort.tail = .endOfInput) ∧
      ((withInput plain [] .silent).inPort.queued = [] ∧ (withInput plain [] .silent).inPort.tail = .silent) := by decide

theorem witness_TrapRowsCompleteByDefault : let s := withInput (start 0x3000 0 .z [(0, 0x3004)] [(0x3004, 0x41)]) [some 0x41#8] .silent
    s.cfg.builtins = Config.default.builtins ∧ (∃ rest, s.inPort.readChar = .char 0x41#8 rest) ∧
      ((∀ k ≤ 1, s.inBounds (s.readReg 0 + BitVec.ofNat 16 k)) ∧ s.stringWord (s.readReg 0) 1 = 0#16) ∧
      ((Instr.trapTable 0xFF#8).wf = true ∧ s.inBounds (s.cfg.trapTableBase + (0xFF#8).setWidth 16)) :=
  ⟨by decide, ⟨_, rfl⟩, by decide, by decide⟩

theorem witness_CharacterOutEmitsLowByte : plain.builtinOf .trapOut = some .charOut := by decide

/-- A string that ends in the last word, the empty string, one that runs off the end, and one that never ends. -/
theorem witness_StringOutEmitsWholeString :
    plain.builtinOf .trapPuts = some .stringOut ∧
      (let s := small 0x3000 0xF022 [(0, 0x3FFE)] [(0x3FFE, 0x0041)]
       (∀ k ≤ 1, s.inBounds (s.readReg 0 + BitVec.ofNat 16 k)) ∧ (∀ k < 1, s.stringWord (s.readReg 0) k ≠ 0#16) ∧
         s.stringWord (s.readReg 0) 1 = 0#16) ∧
      (plain.inBounds (plain.readReg 0) ∧ plain.stringWord (plain.readReg 0) 0 = 0#16) ∧
      (let s := small 0x3000 0xF022 [(0, 0x3FFE)] [(0x3FFE, 0x0041), (0x3FFF, 0x0042)]
       (∀ k < 2, s.inBounds (s.readReg 0 + BitVec.ofNat 16 k) ∧ s.stringWord (s.readReg 0) k ≠ 0#16) ∧
         ¬ s.inBounds (s.readReg 0 + BitVec.ofNat 16 2)) ∧
      (endless.builtinOf .trapPuts = some .stringOut ∧
        ∀ b : Word, endless.inBounds b ∧ endless.mem.read b.toNat ≠ 0#16) := by
  refine ⟨by decide, by decide, by decide, by decide, by decide, fun b => ?_⟩
  have hb := b.isLt
  refine ⟨hb, ?_⟩
  have h (k : Nat) (hk : k < 131072) : fullMemory.readByte k = 0x01#8 := readByte_fill 0 131072 k (by omega) (by omega)
  show Memory.read fullMemory b.toNat ≠ 0#16
  rw [Memory.read, h _ (by omega), h _ (by omega)]
  decide

theorem witness_HaltTrapSetsLatch : plain.builtinOf .trapHalt = some .haltMachine := by decide

theorem witness_BuiltinTrapsNeverLink :
    plain.builtinOf .trapOut = some .charOut ∧ ∃ t, exec .trapOut plain = .next t := ⟨by decide, _, rfl⟩

theorem witness_StepRunsDecodedInstruction :
    (plain.halted = false ∧ plain.inBounds plain.pc) ∧
      (let s := small 0x4000 0 [] []
       s.halted = false ∧ ¬ s.inBounds s.pc) ∧
      (plain.setHalted true).halted = true := by decide

theorem witness_PlacedWordIsExecuted :
    (small 0x3FFF 0 [] []).inBounds (small 0x3FFF 0 [] []).pc ∧ 65535 < 65536 := by decide

theorem witness_PcAdvancesUnlessTransferred :
    (∃ t, exec .trapHalt plain = .next t) ∧ plain.mayTransfer .trapHalt = false := ⟨⟨_, rfl⟩, by decide⟩

theorem witness_FailedStepChangesNothing :
    ∃ t f, (start 0x3000 0xD000 .z [] []).stepRequest = (some (.failed f), t) := ⟨_, _, rfl⟩

/-- A step that fails for each reason a step can, and two of those that never end. -/
theorem witness_StepStopsAreClosed :
    step (start 0x3000 0x8000 .z [] []) = .fault .illegalOpcode ∧
      step (small 0x4000 0 [] []) = .fault (.memoryAddressOutOfBounds 0x4000) ∧
      step (start 0x3000 0xF020 .z [] []) = .fault .stuckEndOfInput ∧
      step (withInput (start 0x3000 0xF020 .z [] []) [] .silent) = .fault .stuckNoInput := ⟨rfl, rfl, rfl, rfl⟩

theorem witness_OutOfBoundsComesFromAccess :
    step (small 0x4000 0 [] []) = .fault (.memoryAddressOutOfBounds 0x4000) ∧
      step (small 0x3FFF 0x2000 [] []) = .fault (.memoryAddressOutOfBounds 0x4000) := ⟨rfl, rfl⟩

theorem witness_InvalidRegisterAddressUnreachable : 7 < 8 ∧ 8 ≤ 8 := by decide

theorem witness_ChecksHappenInOrder :
    (plain.setHalted true).halted = true ∧
      (let s := small 0x4000 0xD000 [] []
       s.halted = false ∧ ¬ s.inBounds s.pc) ∧
      (let s := small 0x3FFF 0xD000 [] []
       s.halted = false ∧ s.inBounds s.pc ∧ (decode (s.mem.read s.pc.toNat)).isIllegal = true) ∧
      (let s := small 0x3FFF 0xA000 [] []
       ¬ s.inBounds (s.pc + 1#16 + 0#16)) := by decide

theorem witness_ReportedCodesAreTheListedOnes :
    (∃ t, step plain = .next t ∧ t.halted = false) ∧
      (∃ t, step (start 0x3000 0xF025 .z [] []) = .next t ∧ t.halted = true) ∧
      (step (start 0x3000 0xD000 .z [] []) = .fault .illegalOpcode ∧ Fault.illegalOpcode.isFailure = true) ∧
      (∃ t, plain.stepRequest = (some .continued, t)) ∧
      ∃ t, (small 0x4000 0 [] []).stepRequest = (some (.failed (.memoryAddressOutOfBounds 0x4000)), t) :=
  ⟨⟨_, rfl, rfl⟩, ⟨_, rfl, rfl⟩, ⟨rfl, rfl⟩, ⟨_, rfl⟩, _, rfl⟩

theorem witness_MemoryPortContract :
    (small 0x3000 0 [] []).inBounds 0x3FFF#16 ∧ ¬ (small 0x3000 0 [] []).inBounds 0x4000#16 := by decide

/-- A form that stores nothing, ST and STI into the last word of memory, and STR into it from a base out of bounds. -/
theorem witness_OnlyStoresWriteMemory :
    (isStore (.ld 0 0#16) = false ∧ ∃ t, exec (.ld 0 0#16) plain = .next t) ∧
      (∃ t, exec (.st 0 0#16) (small 0x3FFE 0x3000 [] []) = .next t) ∧
      (∃ t, exec (.sti 0 0#16) (small 0x3000 0xB000 [] [(0x3001, 0x3FFF)]) = .next t) ∧
      ∃ t, exec (.str 1 2 0xFFFF#16) (small 0x3000 0x72BF [(2, 0x4000)] []) = .next t :=
  ⟨⟨rfl, _, rfl⟩, ⟨_, rfl⟩, ⟨_, rfl⟩, _, rfl⟩

theorem witness_StoredWordIsFetchedNext :
    (∃ t, plain.memWrite 0xFFFF#16 0x1021#16 = .ok t ∧ ∃ u : State, u.mem = t.mem ∧ u.cfg = t.cfg ∧ u.pc = 0xFFFF#16) ∧
      plain.halted = false ∧ ∃ t, exec (.st 0 0#16) plain = .next t :=
  ⟨⟨_, rfl, plain.memWrite 0xFFFF#16 0x1021#16 |>.toOption.getD plain |>.setPc 0xFFFF#16, rfl, rfl, rfl⟩, rfl, _, rfl⟩

theorem witness_UnloadedWordsAreZeroAndWalk :
    (∃ t, (State.resetAt Config.default none InPort.unnamed).loadImage [(0x3000#16, 0xF025#16)] = .ok t ∧
        t.inBounds 0xFFFF#16 ∧ ∀ v, (0xFFFF#16, v) ∉ [(0x3000#16, 0xF025#16)]) ∧
      (([(0x3000#16, 0xF025#16)] : List (Word × Word)).map Prod.fst).Nodup ∧
      (plain.halted = false ∧ plain.memRead plain.pc = .ok 0#16) := by
  refine ⟨⟨_, rfl, by decide, by simp⟩, by decide, rfl, rfl⟩

theorem witness_HaltedIsTerminal : (plain.setHalted true).halted = true := rfl

theorem witness_LatchIsSetOnlyByHalt : let s := start 0x3000 0xF025 .z [] []
    s.halted = false ∧ (∃ t, step s = .next t ∧ t.halted = true) ∧ (plain.setHalted true).halted = true ∧
      ∃ t, step (plain.setHalted true) = .next t := ⟨rfl, ⟨_, rfl, rfl⟩, rfl, _, rfl⟩

/-- A start address and none, and the host's reset of a halted machine with registers and memory written. -/
theorem witness_ResetValues :
    (some 0x0200#16 : Option Word) = some 0x0200#16 ∧ (none : Option Word) = none ∧
      (State.resetAt Config.default none InPort.unnamed).inBounds 0xFFFF#16 ∧
      ((start 0x3005 0xF025 .n [(7, 0x1111)] []).setHalted true |>.hostReset none).inBounds 0x3005#16 := by decide

theorem witness_PresetLeavesFlags : (0 : RegAddr) ≠ 7 := by decide

theorem witness_ResetMeetsInvariant : Config.default.wf ∧ { Config.default with memSize := 1 }.wf := by decide

theorem witness_StepKeepsInvariant : let s := start 0x3000 0x3000 .z [(0, 0x14A9)] []
    s.Inv ∧ ∃ t, step s = .next t := ⟨by decide, _, rfl⟩

theorem witness_PortsAreUsedOnlyByBuiltins :
    (∃ t, exec .trapOut plain = .next t) ∧ ∃ t, exec .trapGetc (withInput plain [some 0x41#8] .silent) = .next t :=
  ⟨⟨_, rfl⟩, _, rfl⟩

end Sys2Proof.Tests
end

section
/-! PROOFS. The statements of the family 00_scope: sign extension (R14), the input port (R10, R121) and who uses the
I/O port (R10, R205). -/

namespace Sys2Proof

/-! ### Sign extension -/

/-- R14: the low bits of a sign extension are the field. -/
theorem sext_getLsbD_of_lt {n k : Nat} (v : BitVec n) (hn : n ≤ 16) (hk : k < n) :
    (sext v).getLsbD k = v.getLsbD k := by
  have hk16 : k < 16 := by omega
  rw [sext, BitVec.getLsbD_signExtend]
  simp [hk, hk16]

/-- R14: every bit above the field is the field's top bit. -/
theorem sext_getLsbD_of_ge {n k : Nat} (v : BitVec n) (hk : n ≤ k) (hk16 : k < 16) :
    (sext v).getLsbD k = v.getLsbD (n - 1) := by
  have hkn : ¬ k < n := by omega
  rw [sext, BitVec.getLsbD_signExtend, BitVec.msb_eq_getLsbD_last]
  simp [hkn, hk16]

/-- A sign extension has the field's value in two's complement. -/
theorem sext_toInt {n : Nat} (v : BitVec n) (hn : n ≤ 16) : (sext v).toInt = v.toInt :=
  BitVec.toInt_signExtend_of_le hn

/-- Settles O1: bit by bit from the two halves of the word, and the value from the library's law. -/
theorem signExtensionReplicatesSignBit : Obligations.SignExtensionReplicatesSignBit :=
  fun _ v _ hn => ⟨fun _ => sext_getLsbD_of_lt v hn, fun _ => sext_getLsbD_of_ge v, sext_toInt v hn⟩

end Sys2Proof

namespace Sys2Proof.Machine

/-! ### What the input port answers, one lemma for each kind of port -/

section
variable {port : InPort}

theorem InPort.readChar_of_queued_char {c : Byte} {cs : List (Option Byte)} (h : port.queued = some c :: cs) :
    port.readChar = .char c { port with queued := cs } := by
  simp [InPort.readChar, h]

theorem InPort.readChar_of_queued_end {cs : List (Option Byte)} (h : port.queued = none :: cs) :
    port.readChar = .endOfInput { port with queued := cs } := by
  simp [InPort.readChar, h]

theorem InPort.readChar_of_unlisted (h : port.queued = []) (ht : port.tail = .unlisted) :
    port.readChar = .char (Config.freeInputChar port.taken) { port with taken := port.taken + 1 } := by
  simp [InPort.readChar, h, ht]

theorem InPort.readChar_of_endOfInput (h : port.queued = []) (ht : port.tail = .endOfInput) :
    port.readChar = .endOfInput port := by
  simp [InPort.readChar, h, ht]

theorem InPort.readChar_of_silent (h : port.queued = []) (ht : port.tail = .silent) : port.readChar = .never := by
  simp [InPort.readChar, h, ht]

end

/-- R173: character-in completes with the character the port answers, whichever it is. -/
theorem exec_charIn_of_readChar {i : Instr} {s : State} {c : Byte} {rest : InPort}
    (hi : s.builtinOf i = some .charIn) (h : s.inPort.readChar = .char c rest) :
    exec i s = .next ((s.setPort rest).writeReg 0 (c.setWidth 16)).retire := by
  rw [exec_builtin hi]
  simp [runBuiltin, charIn, h]

/-- Settles O31: the port's answer for each queue and tail, handed to character-in where it is a character. -/
theorem inputPortAnswersInOrder : Obligations.InputPortAnswersInOrder := by
  intro i s hi
  refine ⟨fun c cs hq => ?listed, fun _ => InPort.readChar_of_queued_end, fun hq ht => ?unlisted,
    InPort.readChar_of_endOfInput, InPort.readChar_of_silent⟩
  case listed => exact ⟨_, exec_charIn_of_readChar hi (InPort.readChar_of_queued_char hq), by simp, rfl⟩
  case unlisted =>
    exact ⟨_, _, exec_charIn_of_readChar hi (InPort.readChar_of_unlisted hq ht),
      State.writeReg_wrote (s.setPort _) 0 _, rfl⟩

/-! ### Who uses the I/O port -/

/-- R10: an instruction that completes emits nothing, and is character-in where it used the input side; or it is
character-out or string-out, emits one transaction and leaves the input side alone. -/
theorem exec_ports_cases {i : Instr} {s t : State} (h : exec i s = .next t) :
    (t.output = s.output ∧ (t.inPort = s.inPort ∨ s.builtinOf i = some .charIn)) ∨
      ((∃ w, t.output = s.output ++ [w]) ∧ t.inPort = s.inPort ∧
        (s.builtinOf i = some .charOut ∨ s.builtinOf i = some .stringOut)) := by
  obtain ⟨_, _, -, -, rfl⟩ | ⟨_, -, -, rfl⟩ | ⟨_, -, -, rfl⟩ | ⟨_, _, -, -, -, -, rfl⟩ | ⟨_, _, charIn, -, -, rfl⟩ |
    ⟨w, charOrStringOut, -, -, rfl⟩ | ⟨_, port, -, -, -, rfl⟩ := exec_cases h
  · exact .inl ⟨rfl, .inl rfl⟩
  · exact .inl ⟨rfl, .inl rfl⟩
  · exact .inl ⟨rfl, .inl rfl⟩
  · exact .inl ⟨rfl, .inl rfl⟩
  · exact .inl ⟨rfl, .inr charIn⟩
  · exact .inr ⟨⟨w, rfl⟩, rfl, charOrStringOut⟩
  · exact .inl ⟨rfl, port⟩

/-- Settles O58: an instruction that completes uses at most one side of the port, by the routine that side is for. -/
theorem portsAreUsedOnlyByBuiltins : Obligations.PortsAreUsedOnlyByBuiltins := by
  intro i s t h
  obtain ⟨output, input⟩ | ⟨emitted, inPort, routine⟩ := exec_ports_cases h
  · exact ⟨.inl output, input⟩
  · exact ⟨.inr ⟨emitted, routine⟩, .inl inPort⟩

end Sys2Proof.Machine
end

section
/-! PROOFS. The statements of the family 10_state: the condition codes (R23, R27 to R29), the halted latch (R33), reset
(R35) and the host's presets (R36). -/

namespace Sys2Proof.Machine

/-! ### The condition codes of a value (R27, R28) -/

/-- Exactly one of the three flags is set (R27). -/
theorem Cond.flags_sum (c : Cond) : c.flagN.toNat + c.flagZ.toNat + c.flagP.toNat = 1 := by
  cases c <;> rfl

/-- A word is positive in two's complement when its sign bit is clear and it is not zero. -/
theorem zero_lt_toInt_iff (v : Word) : 0 < v.toInt ↔ v.msb = false ∧ v ≠ 0#16 := by
  have zero : v = 0#16 ↔ v.toInt = 0 := by rw [← BitVec.toInt_inj, BitVec.toInt_zero]
  rw [Ne, zero, BitVec.msb_eq_toInt, decide_eq_false_iff_not]
  omega

/-- Settles O7: the flags of `condOf v` are the three clauses of `CondIs`, with zero and positive read as numbers. -/
theorem conditionCodesOfEveryValue : Obligations.ConditionCodesOfEveryValue := by
  intro v
  obtain ⟨isN, isZ, isP⟩ := condOf_is v
  refine ⟨condOf_is v, ⟨?n, ?z, ?p⟩, Cond.flags_sum⟩
  case n => rw [Bool.eq_iff_iff, Cond.flagN, beq_iff_eq, isN]
  case z => rw [Cond.flagZ, beq_iff_eq, isZ, ← BitVec.toNat_inj, BitVec.toNat_zero]
  case p => rw [Cond.flagP, beq_iff_eq, isP, zero_lt_toInt_iff]

/-! ### What a completed instruction does to the registers and the condition codes (R23, R29) -/

/-- R23: a completed instruction writes its destination, and nothing else of the registers and condition codes; one
without a destination leaves them all alone. -/
theorem exec_registers_cases {i : Instr} {s t : State} (h : exec i s = .next t) :
    (∃ r v, s.destination i = some r ∧ WroteReg s t r v) ∨ (s.destination i = none ∧ KeptRegs s t) := by
  obtain ⟨r, v, dest, -, rfl⟩ | ⟨_, dest, -, rfl⟩ | ⟨_, dest, -, rfl⟩ | ⟨_, _, -, dest, -, -, rfl⟩ |
    ⟨_, v, -, dest, -, rfl⟩ | ⟨_, -, dest, -, rfl⟩ | ⟨_, -, -, dest, -, rfl⟩ := exec_cases h
  · exact .inl ⟨r, v, dest, s.writeReg_wrote r v⟩
  · exact .inl ⟨linkReg, s.nextPc, dest, s.writeReg_wrote linkReg s.nextPc⟩
  · exact .inr ⟨dest, fun _ => rfl, rfl⟩
  · exact .inr ⟨dest, fun _ => rfl, rfl⟩
  · exact .inl ⟨0, v, dest, (s.setPort _).writeReg_wrote 0 v⟩
  · exact .inr ⟨dest, fun _ => rfl, rfl⟩
  · exact .inr ⟨dest, fun _ => rfl, rfl⟩

/-! ### Other condition codes before an operation

`presetCond` commutes with every operation but a register write, which overwrites the condition codes. -/

section
variable (s : State) (c : Cond)

@[simp] theorem State.presetCond_cfg : (s.presetCond c).cfg = s.cfg := rfl
@[simp] theorem State.presetCond_mem : (s.presetCond c).mem = s.mem := rfl
@[simp] theorem State.presetCond_inPort : (s.presetCond c).inPort = s.inPort := rfl
@[simp] theorem State.readReg_presetCond (r : RegAddr) : (s.presetCond c).readReg r = s.readReg r := rfl
theorem State.memRead_presetCond (a : Word) : (s.presetCond c).memRead a = s.memRead a := rfl
@[simp] theorem State.writeReg_presetCond (r : RegAddr) (v : Word) :
    (s.presetCond c).writeReg r v = s.writeReg r v := rfl
@[simp] theorem State.setMem_presetCond (m : Memory) : (s.presetCond c).setMem m = (s.setMem m).presetCond c := rfl
@[simp] theorem State.setPort_presetCond (port : InPort) :
    (s.presetCond c).setPort port = (s.setPort port).presetCond c := rfl
@[simp] theorem State.emit_presetCond (w : PortWrite) : (s.presetCond c).emit w = (s.emit w).presetCond c := rfl
@[simp] theorem State.retire_presetCond : (s.presetCond c).retire = s.retire.presetCond c := rfl
@[simp] theorem State.halt_presetCond : (s.presetCond c).halt = s.halt.presetCond c := rfl

@[simp] theorem State.readString_presetCond (fuel : Nat) (a : Word) :
    (s.presetCond c).readString fuel a = s.readString fuel a := by
  induction fuel generalizing a with
  | zero => rfl
  | succ fuel ih => simp only [State.readString, State.memRead_presetCond, ih]

end

@[simp] theorem mapNext_next (f : State → State) (t : State) : mapNext f (.next t) = .next (f t) := rfl
@[simp] theorem mapNext_fault (f : State → State) (e : Fault) : mapNext f (.fault e) = .fault e := rfl

theorem mapNext_orFail {α : Type} (f : State → State) (x : Except Fault α) (k : α → Result) :
    mapNext f (orFail x k) = orFail x fun v => mapNext f (k v) := by
  cases x <;> rfl

/-- Of two presets of the condition codes the second stands. -/
theorem mapNext_presetCond_mapNext (c d : Cond) (r : Result) :
    mapNext (fun t => t.presetCond d) (mapNext (fun t => t.presetCond c) r) = mapNext (fun t => t.presetCond d) r := by
  cases r <;> rfl

/-! ### Other condition codes before an instruction (R29) -/

/-- From other condition codes the meaning answers the same, having overwritten them, or the same but for carrying
them along unread. -/
abbrev OverwritesOrCarriesCond (meaning : State → Result) (s : State) (c : Cond) : Prop :=
  meaning (s.presetCond c) = meaning s ∨ meaning (s.presetCond c) = mapNext (fun t => t.presetCond c) (meaning s)

section
variable (s : State) (c : Cond)

/-- A store carries the condition codes along. -/
theorem storeTo_presetCond (sr : RegAddr) (ea : Word) :
    storeTo (s.presetCond c) sr ea = mapNext (fun t => t.presetCond c) (storeTo s sr ea) := by
  by_cases h : s.inBounds ea
  · simp [storeTo, State.memWrite_ok, h]
  · simp [storeTo, State.memWrite_error, h]

theorem execSti_presetCond (sr : RegAddr) (off : Word) :
    execSti sr off (s.presetCond c) = mapNext (fun t => t.presetCond c) (execSti sr off s) := by
  rw [execSti, execSti, mapNext_orFail]
  exact congrArg (orFail (s.indirect off)) (funext (storeTo_presetCond s c sr))

/-- Character-in overwrites the condition codes, except where the policy `halt` ends the run. -/
theorem charIn_presetCond : OverwritesOrCarriesCond charIn s c := by
  unfold OverwritesOrCarriesCond
  cases answer : s.inPort.readChar with
  | char => exact .inl (by simp [charIn, answer])
  | never => exact .inl (by simp [charIn, answer])
  | endOfInput =>
    cases policy : s.cfg.eofPolicy with
    | stuck => exact .inl (by simp [charIn, endOfInput, answer, policy])
    | zero => exact .inl (by simp [charIn, endOfInput, answer, policy])
    | halt => exact .inr (by simp [charIn, endOfInput, answer, policy])

theorem stringOut_presetCond : stringOut (s.presetCond c) = mapNext (fun t => t.presetCond c) (stringOut s) := by
  cases string : s.readString stringFuel (s.readReg 0) <;> simp [stringOut, string]

theorem runBuiltin_presetCond (b : Builtin) : OverwritesOrCarriesCond (runBuiltin b) s c := by
  cases b with
  | charIn => exact charIn_presetCond s c
  | charOut => exact .inr rfl
  | stringOut => exact .inr (stringOut_presetCond s c)
  | haltMachine => exact .inr rfl

theorem dispatchTrap_presetCond (vec : TrapVector) : OverwritesOrCarriesCond (dispatchTrap vec) s c := by
  unfold OverwritesOrCarriesCond
  cases routine : s.cfg.builtins.lookup vec with
  | none =>
    simp only [dispatchTrap, State.presetCond_cfg, routine]
    exact .inl rfl
  | some b =>
    simp only [dispatchTrap, State.presetCond_cfg, routine]
    exact runBuiltin_presetCond s c b

/-- R29: no instruction but BR reads the condition codes. -/
theorem exec_presetCond {i : Instr} (hi : isBranch i = false) : OverwritesOrCarriesCond (exec i) s c := by
  cases i with
  | br => cases hi
  | addReg | addImm | andReg | andImm | notReg | ld | ldi | ldr | lea | jsr | jsrr => exact .inl rfl
  | illegal1000 | reserved1101 => exact .inl rfl
  | jmp => exact .inr rfl
  | st | str => exact .inr (storeTo_presetCond s c _ _)
  | sti sr off => exact .inr (execSti_presetCond s c sr off)
  | trapTable | trapGetc | trapOut | trapPuts | trapHalt => exact dispatchTrap_presetCond s c _

end

/-- Settles O8: the register write or its absence from `exec_registers_cases`, and independence of the condition codes
from `exec_presetCond`. -/
theorem flagsFollowRegisterWritesOnly : Obligations.FlagsFollowRegisterWritesOnly := by
  refine ⟨fun i s t h => ?writes, fun i s c hi => ?reads, fun _ => rfl⟩
  case writes =>
    obtain ⟨r, v, dest, wrote⟩ | ⟨dest, kept⟩ := exec_registers_cases h
    · obtain ⟨rfl, others, cond⟩ := wrote
      simpa only [dest] using ⟨rfl, others, cond⟩
    · simpa only [dest] using kept
  case reads =>
    obtain overwritten | carried := exec_presetCond s c hi
    · rw [overwritten]
    · rw [carried, mapNext_presetCond_mapNext]

/-! ### The halted latch (R33) -/

/-- A completed instruction leaves the latch as it was, or ends the run and sets it. -/
theorem exec_halted_cases {i : Instr} {s t : State} (h : exec i s = .next t) :
    t.halted = s.halted ∨ (s.halts i = true ∧ t.halted = true) := by
  obtain ⟨_, _, -, -, rfl⟩ | ⟨_, -, -, rfl⟩ | ⟨_, -, -, rfl⟩ | ⟨_, _, -, -, -, -, rfl⟩ | ⟨_, _, -, -, -, rfl⟩ |
    ⟨_, -, -, -, rfl⟩ | ⟨_, -, halts, -, -, rfl⟩ := exec_cases h
  · exact .inl rfl
  · exact .inl rfl
  · exact .inl rfl
  · exact .inl rfl
  · exact .inl rfl
  · exact .inl rfl
  · exact .inr ⟨halts, rfl⟩

/-- Settles O53: a halted machine stays as it is, and one that runs sets the latch only by an instruction that halts. -/
theorem latchIsSetOnlyByHalt : Obligations.LatchIsSetOnlyByHalt := by
  intro s t h
  obtain ⟨halted, rfl⟩ | ⟨running, i, fetched, executed⟩ := step_cases h
  · exact ⟨id, fun running => absurd halted (by simp [running])⟩
  · refine ⟨fun halted => absurd halted (by simp [running]), fun _ set => ⟨i, fetched, ?_⟩⟩
    obtain kept | ⟨halts, -⟩ := exec_halted_cases executed
    · exact absurd (kept.symm.trans set) (by simp [running])
    · exact halts

/-! ### Reset and preset (R35, R36) -/

/-- R35: the state after reset, for all parameters and start addresses. -/
theorem State.resetAt_atResetValues (c : Config) (start : Option Word) (port : InPort) :
    (State.resetAt c start port).AtResetValues start := by
  refine ⟨State.readReg_resetAt c start port, rfl, rfl, ?started, ?unstarted, fun a inBounds => ?zeroed⟩
  case started => rintro a rfl; rfl
  case unstarted => rintro rfl; rfl
  case zeroed => rw [State.memRead_ok inBounds, State.resetAt_mem, Memory.read_nil]

/-- Settles O54: the host's reset differs from `resetAt` in what the block has emitted, of which R35 says nothing. -/
theorem resetValues : Obligations.ResetValues :=
  ⟨fun c start port => ⟨State.resetAt_atResetValues c start port, rfl⟩,
    fun s start => ⟨State.resetAt_atResetValues s.cfg start s.inPort, rfl, rfl, rfl⟩, rfl⟩

/-- Settles O55: a preset is `setReg`, which is seen by reads of its register only. -/
theorem presetLeavesFlags : Obligations.PresetLeavesFlags := by
  intro s r v
  refine ⟨?written, fun q hq => ?others, rfl, rfl, fun _ => rfl, ⟨rfl, rfl⟩, rfl, rfl⟩
  case written => simp [State.presetReg]
  case others => simp [State.presetReg, hq]

end Sys2Proof.Machine
end

section
/-! PROOFS. The statements of the family 20_memory: the memory port (R51), who writes memory (R50, R55), stored words as
instructions (R61), unloaded words (R64) and the invariant (R52). -/

namespace Sys2Proof.Machine

/-! ### The memory port (R51) -/

/-- A write succeeds only in bounds, and then replaces the word in the memory. -/
theorem State.memWrite_eq_ok {s t : State} {a v : Word} (h : s.memWrite a v = .ok t) :
    s.inBounds a ∧ t = s.setMem (s.mem.write a.toNat v) := by
  obtain ⟨inBounds, ok⟩ | ⟨-, error⟩ := s.memWrite_cases a v
  · exact ⟨inBounds, Except.ok.inj (h.symm.trans ok)⟩
  · cases h.symm.trans error

/-- A read through the port after a write through the port. -/
theorem State.memRead_of_memWrite {s t : State} {a v : Word} (h : s.memWrite a v = .ok t) (b : Word) :
    t.memRead b = if b = a then .ok v else s.memRead b := by
  obtain ⟨inBounds, rfl⟩ := State.memWrite_eq_ok h
  by_cases same : b = a
  · subst same
    have inBoundsAfter : (s.setMem (s.mem.write b.toNat v)).inBounds b := inBounds
    rw [if_pos rfl, State.memRead_ok inBoundsAfter, State.setMem_mem, Memory.read_write, if_pos rfl]
  · have apart : b.toNat ≠ a.toNat := fun e => same (BitVec.eq_of_toNat_eq e)
    simp [State.memRead, same, apart]

/-- Settles O48: in bounds the write is `setMem`, which no other field sees; out of bounds both accesses fail. -/
theorem memoryPortContract : Obligations.MemoryPortContract := by
  refine fun s a v => ⟨fun inBounds => ⟨State.memRead_ok inBounds, ?_⟩,
    fun outOfBounds => ⟨State.memRead_error outOfBounds, State.memWrite_error v outOfBounds⟩⟩
  have written := State.memWrite_ok v inBounds
  have stored : StoredWord s (s.setMem (s.mem.write a.toNat v)) a v :=
    ⟨by simp, fun k => Memory.write_stored s.mem a.toNat k v⟩
  exact ⟨_, written, State.memRead_of_memWrite written, stored, rfl, ⟨fun _ => rfl, rfl⟩, ⟨rfl, rfl⟩, rfl, rfl⟩

/-! ### What a completed instruction does to the memory and the parameters (R50, R55) -/

/-- What follows an access that may fail completes only after the access succeeded. -/
theorem orFail_eq_next {α : Type} {x : Except Fault α} {k : α → Result} {t : State} (h : orFail x k = .next t) :
    ∃ v, x = .ok v ∧ k v = .next t := by
  cases x with
  | ok v => exact ⟨v, rfl, h⟩
  | error f => cases h

/-- A completed instruction leaves the parameters alone, and all of memory, or is a store and writes one word that is
in bounds. -/
theorem exec_memory_cases {i : Instr} {s t : State} (h : exec i s = .next t) :
    t.cfg = s.cfg ∧
      (t.mem = s.mem ∨ (isStore i = true ∧ ∃ a v, s.inBounds a ∧ t.mem = s.mem.write a.toNat v)) := by
  obtain ⟨_, _, -, -, rfl⟩ | ⟨_, -, -, rfl⟩ | ⟨_, -, -, rfl⟩ | ⟨a, v, store, -, -, inBounds, rfl⟩ |
    ⟨_, _, -, -, -, rfl⟩ | ⟨_, -, -, -, rfl⟩ | ⟨_, -, -, -, -, rfl⟩ := exec_cases h
  · exact ⟨rfl, .inl rfl⟩
  · exact ⟨rfl, .inl rfl⟩
  · exact ⟨rfl, .inl rfl⟩
  · exact ⟨rfl, .inr ⟨store, a, v, inBounds, rfl⟩⟩
  · exact ⟨rfl, .inl rfl⟩
  · exact ⟨rfl, .inl rfl⟩
  · exact ⟨rfl, .inl rfl⟩

/-- Settles O49: `exec_memory_cases` for the other instructions, and `storeTo_stored` for the three stores, STI's after
its pointer has been read. -/
theorem onlyStoresWriteMemory : Obligations.OnlyStoresWriteMemory := by
  refine ⟨fun i s t notStore h => ?others, fun sr off s t h => storeTo_stored h, fun sr off s t h => ?sti,
    fun sr base off s t h => storeTo_stored h⟩
  case others =>
    obtain ⟨-, kept | ⟨store, -⟩⟩ := exec_memory_cases h
    · exact ⟨kept, fun k => congrArg (Memory.readByte · k) kept⟩
    · exact absurd store (by simp [notStore])
  case sti =>
    obtain ⟨a, pointer, stored⟩ := orFail_eq_next h
    exact ⟨a, pointer, storeTo_stored stored⟩

/-! ### The invariant (R52) -/

/-- Settles O56: the memory after reset lists no byte. -/
theorem resetMeetsInvariant : Obligations.ResetMeetsInvariant :=
  fun _ _ _ legal => ⟨legal, ⟨List.Pairwise.nil, List.forall_mem_nil _⟩, List.forall_mem_nil _⟩

/-- An instruction keeps the invariant: it leaves the memory alone or writes a word that is in bounds. -/
theorem exec_keeps_inv {i : Instr} {s t : State} (inv : s.Inv) (h : exec i s = .next t) : t.Inv := by
  obtain ⟨legal, canonical, within⟩ := inv
  obtain ⟨cfg, mem | ⟨-, a, v, inBounds, mem⟩⟩ := exec_memory_cases h
  · rw [State.Inv, cfg, mem]
    exact ⟨legal, canonical, within⟩
  · rw [State.Inv, cfg, mem]
    exact ⟨legal, Memory.write_wf a.toNat v canonical, Memory.write_within v inBounds within⟩

/-- Settles O57: a halted machine stays as it is, and any other runs one instruction. -/
theorem stepKeepsInvariant : Obligations.StepKeepsInvariant := by
  intro s t inv h
  obtain ⟨-, rfl⟩ | ⟨-, i, -, executed⟩ := step_cases h
  · exact inv
  · exact exec_keeps_inv inv executed

/-! ### Fetching a stored word (R61) -/

/-- A fetch decodes the word that a read at the PC answers. -/
theorem State.fetch_of_memRead {s : State} {w : Word} (h : s.memRead s.pc = .ok w) : s.fetch = .ok (decode w) := by
  rw [State.fetch, h]

/-- A machine that is not halted runs the instruction it fetches. -/
theorem step_of_fetch {s : State} {i : Instr} (running : s.halted = false) (h : s.fetch = .ok i) :
    step s = exec i s := by
  simp [step, running, h]

/-- States with the same memory and parameters read alike. -/
theorem State.memRead_congr {t u : State} (mem : u.mem = t.mem) (cfg : u.cfg = t.cfg) (a : Word) :
    u.memRead a = t.memRead a := by
  rw [State.memRead, State.memRead, mem, cfg]

/-- R61: a fetch at the address of a written word decodes that word. -/
theorem State.fetch_of_memWrite {s t u : State} {a v : Word} (h : s.memWrite a v = .ok t) (mem : u.mem = t.mem)
    (cfg : u.cfg = t.cfg) (pc : u.pc = a) : u.fetch = .ok (decode v) := by
  apply State.fetch_of_memRead
  rw [State.memRead_congr mem cfg, State.memRead_of_memWrite h, if_pos pc]

/-- Settles O50: ST with offset 0 writes at the next PC and goes there, where the fetch is of the word it wrote. -/
theorem storedWordIsFetchedNext : Obligations.StoredWordIsFetchedNext := by
  refine ⟨fun s t u a v => State.fetch_of_memWrite, fun s t sr running h => ?_⟩
  obtain ⟨u, written, retired⟩ := orFail_eq_next h
  obtain rfl : u.retire = t := Host.Outcome.next.inj retired
  obtain ⟨-, rfl⟩ := State.memWrite_eq_ok written
  refine step_of_fetch running (State.fetch_of_memWrite written rfl rfl ?pc)
  case pc => simp [State.pcRelative]

/-! ### Loading an image and walking over unloaded words (R64) -/

/-- The load of an image writes its first word and loads the rest. -/
theorem State.loadImage_cons {s t : State} {a v : Word} {rest : List (Word × Word)}
    (h : s.loadImage ((a, v) :: rest) = .ok t) : ∃ u, s.memWrite a v = .ok u ∧ u.loadImage rest = .ok t := by
  rw [State.loadImage] at h
  cases written : s.memWrite a v with
  | ok u => exact ⟨u, rfl, by simpa only [written] using h⟩
  | error f => simp [written] at h

theorem State.loadImage_cfg {s t : State} {image : List (Word × Word)} (h : s.loadImage image = .ok t) :
    t.cfg = s.cfg := by
  induction image generalizing s with
  | nil => rw [Except.ok.inj h]
  | cons entry rest ih =>
    obtain ⟨u, written, loaded⟩ := State.loadImage_cons h
    obtain ⟨-, rfl⟩ := State.memWrite_eq_ok written
    rw [ih loaded, State.setMem_cfg]

/-- A word that the image does not name is read as before the load. -/
theorem State.memRead_loadImage_of_unnamed {s t : State} {image : List (Word × Word)} {a : Word}
    (h : s.loadImage image = .ok t) (unnamed : a ∉ image.map Prod.fst) : t.memRead a = s.memRead a := by
  induction image generalizing s with
  | nil => rw [Except.ok.inj h]
  | cons entry rest ih =>
    obtain ⟨notFirst, notLater⟩ := List.ne_and_not_mem_of_not_mem_cons unnamed
    obtain ⟨u, written, loaded⟩ := State.loadImage_cons h
    rw [ih loaded notLater, State.memRead_of_memWrite written, if_neg notFirst]

/-- A word that the image names once is read with the image's value. -/
theorem State.memRead_loadImage_of_named {s t : State} {image : List (Word × Word)} {a v : Word}
    (h : s.loadImage image = .ok t) (once : (image.map Prod.fst).Nodup) (named : (a, v) ∈ image) :
    t.memRead a = .ok v := by
  induction image generalizing s with
  | nil => cases named
  | cons entry rest ih =>
    obtain ⟨notLater, onceLater⟩ := List.nodup_cons.mp once
    obtain ⟨u, written, loaded⟩ := State.loadImage_cons h
    obtain rfl | later := List.mem_cons.mp named
    · rw [State.memRead_loadImage_of_unnamed loaded notLater, State.memRead_of_memWrite written, if_pos rfl]
    · exact ih loaded onceLater later

/-- The zero word is a branch with an empty mask. -/
theorem decode_zero : decode 0#16 = .br false false false 0#16 := by decide

/-- R64: a step at a zero word only moves the PC to the next word. -/
theorem step_of_zero_word {s : State} (running : s.halted = false) (h : s.memRead s.pc = .ok 0#16) :
    step s = .next s.retire := by
  rw [step_of_fetch running (State.fetch_of_memRead h), decode_zero]
  rfl

/-- Settles O51: a load keeps the zeros of reset where the image names nothing, and a zero word is stepped over. -/
theorem unloadedWordsAreZeroAndWalk : Obligations.UnloadedWordsAreZeroAndWalk := by
  refine ⟨fun c start port image t h => ⟨fun a inBounds unnamed => ?unloaded,
    fun once a v => State.memRead_loadImage_of_named h once⟩, fun s running h => ?walk⟩
  case unloaded =>
    have notNamed : a ∉ image.map Prod.fst := by simpa using unnamed
    rw [State.inBounds, State.loadImage_cfg h] at inBounds
    rw [State.memRead_loadImage_of_unnamed h notNamed, State.memRead_ok inBounds, State.resetAt_mem, Memory.read_nil]
  case walk =>
    exact ⟨s.retire, step_of_zero_word running h, rfl, ⟨fun _ => rfl, rfl⟩, fun _ => rfl, ⟨rfl, rfl⟩, rfl, rfl⟩

end Sys2Proof.Machine
end

section
/-! PROOFS. The statements of the family 30_encoding: the decoder (R71 to R80) and the encoder (R81). -/

namespace Sys2Proof

/-! ### A word and its fields (R71, R72, R74) -/

/-- A field is two adjacent fields put together. -/
theorem extractLsb'_eq_append_iff {m s a b : Nat} {w : BitVec m} {x : BitVec a} {y : BitVec b} :
    w.extractLsb' s (a + b) = x ++ y ↔ w.extractLsb' (s + b) a = x ∧ w.extractLsb' s b = y := by
  rw [← BitVec.extractLsb'_append_extractLsb'_eq_extractLsb' rfl]
  refine ⟨fun h => ⟨?high, ?low⟩, fun ⟨high, low⟩ => by rw [high, low]⟩
  case high => simpa [BitVec.extractLsb'_append_eq_left] using congrArg (BitVec.extractLsb' b a) h
  case low => simpa [BitVec.extractLsb'_append_eq_right] using congrArg (BitVec.extractLsb' 0 b) h

/-- A word is its upper and its lower part put together. -/
theorem append_eq_iff {a b : Nat} {w : BitVec (a + b)} {x : BitVec a} {y : BitVec b} :
    x ++ y = w ↔ w.extractLsb' b a = x ∧ w.extractLsb' 0 b = y := by
  have h := extractLsb'_eq_append_iff (s := 0) (w := w) (x := x) (y := y)
  rwa [BitVec.extractLsb'_eq_self, Nat.zero_add, eq_comm] at h

theorem eq_regBits_iff {b : BitVec 3} {r : RegAddr} : b = regBits r ↔ regOf b = r :=
  ⟨fun h => by rw [h, regOf_regBits], fun h => by rw [← h, regBits_regOf]⟩

theorem extractLsb'_eq_ofBool_iff {w : Word} {k : Nat} {b : Bool} :
    w.extractLsb' k 1 = BitVec.ofBool b ↔ w.getLsbD k = b := by
  rw [BitVec.getLsbD_eq_extractLsb']
  generalize w.extractLsb' k 1 = x
  revert x b
  decide

/-- R14: the low bits of a sign extension are the field. -/
theorem extractLsb'_sext {n : Nat} (v : BitVec n) (h : n ≤ 16) : (sext v).extractLsb' 0 n = v := by
  ext k hk
  simpa [hk] using sext_getLsbD_of_lt v h hk

/-- R14: a field holds the low bits of a value in its range exactly when the value is its sign extension. -/
theorem eq_extractLsb'_iff_sext_eq {n : Nat} {v : BitVec n} {x : Word} (h1 : 1 ≤ n) (h : n ≤ 16)
    (hf : fitsSigned n x = true) : v = x.extractLsb' 0 n ↔ sext v = x :=
  ⟨fun e => by rw [e, sext_low x h1 h hf], fun e => by rw [← e, extractLsb'_sext v h]⟩

theorem fitsSigned_imm5Of (w : Word) : fitsSigned 5 (imm5Of w) = true := fitsSigned_sext _ (by decide) (by decide)
theorem fitsSigned_off6Of (w : Word) : fitsSigned 6 (off6Of w) = true := fitsSigned_sext _ (by decide) (by decide)
theorem fitsSigned_off9Of (w : Word) : fitsSigned 9 (off9Of w) = true := fitsSigned_sext _ (by decide) (by decide)
theorem fitsSigned_off11Of (w : Word) : fitsSigned 11 (off11Of w) = true := fitsSigned_sext _ (by decide) (by decide)

/-! ### The layouts of R73: the word built from some fields is the word that has those fields -/

section
variable {w : Word} {o : BitVec 4} {r s t : RegAddr} {b : Bool} {imm off : Word}

theorem branchWord_eq_iff {n z p : Bool} (hf : fitsSigned 9 off = true) :
    o ++ BitVec.ofBool n ++ BitVec.ofBool z ++ BitVec.ofBool p ++ off.extractLsb' 0 9 = w ↔
      opcodeOf w = o ∧ w.getLsbD 11 = n ∧ w.getLsbD 10 = z ∧ w.getLsbD 9 = p ∧ off9Of w = off := by
  refine append_eq_iff.trans ?_
  simp only [extractLsb'_eq_append_iff, extractLsb'_eq_ofBool_iff,
    eq_extractLsb'_iff_sext_eq (x := off) (by decide) (by decide) hf, and_assoc]
  rfl

theorem registerFormWord_eq_iff {u : BitVec 2} :
    o ++ regBits r ++ regBits s ++ BitVec.ofBool b ++ u ++ regBits t = w ↔
      opcodeOf w = o ∧ regHi w = r ∧ regMid w = s ∧ w.getLsbD 5 = b ∧ w.extractLsb' 3 2 = u ∧ regLo w = t := by
  refine append_eq_iff.trans ?_
  simp only [extractLsb'_eq_append_iff, extractLsb'_eq_ofBool_iff, eq_regBits_iff, and_assoc]
  rfl

theorem immediateFormWord_eq_iff (hf : fitsSigned 5 imm = true) :
    o ++ regBits r ++ regBits s ++ BitVec.ofBool b ++ imm.extractLsb' 0 5 = w ↔
      opcodeOf w = o ∧ regHi w = r ∧ regMid w = s ∧ w.getLsbD 5 = b ∧ imm5Of w = imm := by
  refine append_eq_iff.trans ?_
  simp only [extractLsb'_eq_append_iff, extractLsb'_eq_ofBool_iff, eq_regBits_iff,
    eq_extractLsb'_iff_sext_eq (x := imm) (by decide) (by decide) hf, and_assoc]
  rfl

theorem pcRelativeWord_eq_iff (hf : fitsSigned 9 off = true) :
    o ++ regBits r ++ off.extractLsb' 0 9 = w ↔ opcodeOf w = o ∧ regHi w = r ∧ off9Of w = off := by
  refine append_eq_iff.trans ?_
  simp only [extractLsb'_eq_append_iff, eq_regBits_iff,
    eq_extractLsb'_iff_sext_eq (x := off) (by decide) (by decide) hf, and_assoc]
  rfl

theorem baseOffsetWord_eq_iff (hf : fitsSigned 6 off = true) :
    o ++ regBits r ++ regBits s ++ off.extractLsb' 0 6 = w ↔
      opcodeOf w = o ∧ regHi w = r ∧ regMid w = s ∧ off6Of w = off := by
  refine append_eq_iff.trans ?_
  simp only [extractLsb'_eq_append_iff, eq_regBits_iff,
    eq_extractLsb'_iff_sext_eq (x := off) (by decide) (by decide) hf, and_assoc]
  rfl

theorem notWord_eq_iff {u : BitVec 6} :
    o ++ regBits r ++ regBits s ++ u = w ↔
      opcodeOf w = o ∧ regHi w = r ∧ regMid w = s ∧ w.extractLsb' 0 6 = u := by
  refine append_eq_iff.trans ?_
  simp only [extractLsb'_eq_append_iff, eq_regBits_iff, and_assoc]
  rfl

theorem jumpWord_eq_iff {u : BitVec 3} {v : BitVec 6} :
    o ++ u ++ regBits s ++ v = w ↔
      opcodeOf w = o ∧ w.extractLsb' 9 3 = u ∧ regMid w = s ∧ w.extractLsb' 0 6 = v := by
  refine append_eq_iff.trans ?_
  simp only [extractLsb'_eq_append_iff, eq_regBits_iff, and_assoc]
  rfl

theorem callOffsetWord_eq_iff (hf : fitsSigned 11 off = true) :
    o ++ BitVec.ofBool b ++ off.extractLsb' 0 11 = w ↔ opcodeOf w = o ∧ w.getLsbD 11 = b ∧ off11Of w = off := by
  refine append_eq_iff.trans ?_
  simp only [extractLsb'_eq_append_iff, extractLsb'_eq_ofBool_iff,
    eq_extractLsb'_iff_sext_eq (x := off) (by decide) (by decide) hf, and_assoc]
  rfl

theorem callRegisterWord_eq_iff {u : BitVec 2} {v : BitVec 6} :
    o ++ BitVec.ofBool b ++ u ++ regBits s ++ v = w ↔
      opcodeOf w = o ∧ w.getLsbD 11 = b ∧ w.extractLsb' 9 2 = u ∧ regMid w = s ∧ w.extractLsb' 0 6 = v := by
  refine append_eq_iff.trans ?_
  simp only [extractLsb'_eq_append_iff, extractLsb'_eq_ofBool_iff, eq_regBits_iff, and_assoc]
  rfl

theorem encodeTrap_eq_iff {v : TrapVector} :
    encodeTrap v = w ↔ opcodeOf w = 0b1111#4 ∧ w.extractLsb' 8 4 = 0#4 ∧ w.extractLsb' 0 8 = v := by
  refine append_eq_iff.trans ?_
  simp only [extractLsb'_eq_append_iff, and_assoc]
  rfl

end

/-! ### The decoder's case split (R77) -/

/-- A TRAP vector without a row of its own is given in the table form. -/
theorem decodeTrap_of_no_row {v : TrapVector} (h : rowVectors.contains v = false) : decodeTrap v = .trapTable v := by
  obtain ⟨rfl, -⟩ | ⟨rfl, -⟩ | ⟨rfl, -⟩ | ⟨rfl, -⟩ | ⟨-, row⟩ := decodeTrap_cases v
  · exact absurd h (by decide)
  · exact absurd h (by decide)
  · exact absurd h (by decide)
  · exact absurd h (by decide)
  · exact row

theorem decodeTrap_wf (v : TrapVector) : (decodeTrap v).wf = true := by
  obtain ⟨-, row⟩ | ⟨-, row⟩ | ⟨-, row⟩ | ⟨-, row⟩ | ⟨noRow, row⟩ := decodeTrap_cases v <;> rw [row, Instr.wf]
  rw [noRow, Bool.not_false]

theorem trapVectorOf_decodeTrap (v : TrapVector) : Machine.trapVectorOf (decodeTrap v) = some v := by
  obtain ⟨rfl, row⟩ | ⟨rfl, row⟩ | ⟨rfl, row⟩ | ⟨rfl, row⟩ | ⟨-, row⟩ := decodeTrap_cases v <;> rw [row] <;> rfl

theorem encode_decodeTrap (v : TrapVector) : encode (decodeTrap v) = some (encodeTrap v) := by
  obtain ⟨rfl, row⟩ | ⟨rfl, row⟩ | ⟨rfl, row⟩ | ⟨rfl, row⟩ | ⟨-, row⟩ := decodeTrap_cases v <;> rw [row] <;> rfl

/-- The nineteen forms a word can have: its opcode and, for three opcodes, the bit that selects the form. -/
theorem word_cases {P : Prop} (w : Word)
    (br : opcodeOf w = 0b0000#4 → P)
    (addReg : opcodeOf w = 0b0001#4 → w.getLsbD 5 = false → P)
    (addImm : opcodeOf w = 0b0001#4 → w.getLsbD 5 = true → P)
    (ld : opcodeOf w = 0b0010#4 → P)
    (st : opcodeOf w = 0b0011#4 → P)
    (jsr : opcodeOf w = 0b0100#4 → w.getLsbD 11 = true → P)
    (jsrr : opcodeOf w = 0b0100#4 → w.getLsbD 11 = false → P)
    (andReg : opcodeOf w = 0b0101#4 → w.getLsbD 5 = false → P)
    (andImm : opcodeOf w = 0b0101#4 → w.getLsbD 5 = true → P)
    (ldr : opcodeOf w = 0b0110#4 → P)
    (str : opcodeOf w = 0b0111#4 → P)
    (illegal1000 : opcodeOf w = 0b1000#4 → P)
    (notReg : opcodeOf w = 0b1001#4 → P)
    (ldi : opcodeOf w = 0b1010#4 → P)
    (sti : opcodeOf w = 0b1011#4 → P)
    (jmp : opcodeOf w = 0b1100#4 → P)
    (reserved1101 : opcodeOf w = 0b1101#4 → P)
    (lea : opcodeOf w = 0b1110#4 → P)
    (trap : opcodeOf w = 0b1111#4 → P) : P := by
  obtain h | h | h | h | h | h | h | h | h | h | h | h | h | h | h | h := opcode_cases w
  · exact br h
  · cases form : w.getLsbD 5 with
    | false => exact addReg h form
    | true => exact addImm h form
  · exact ld h
  · exact st h
  · cases form : w.getLsbD 11 with
    | false => exact jsrr h form
    | true => exact jsr h form
  · cases form : w.getLsbD 5 with
    | false => exact andReg h form
    | true => exact andImm h form
  · exact ldr h
  · exact str h
  · exact illegal1000 h
  · exact notReg h
  · exact ldi h
  · exact sti h
  · exact jmp h
  · exact reserved1101 h
  · exact lea h
  · exact trap h

/-! ### The unused bits of each form (R78) and their canonical values (R81) -/

/-- The opcodes of which every word uses all its bits. -/
def fullOpcodes : List (BitVec 4) :=
  [0b0000#4, 0b0010#4, 0b0011#4, 0b0110#4, 0b0111#4, 0b1010#4, 0b1011#4, 0b1110#4]

section
variable {w : Word} {o : BitVec 4}

theorem usedBits_of_full (h : opcodeOf w = o) (ho : o ∈ fullOpcodes) : usedBits w = 0xFFFF#16 := by
  simp only [fullOpcodes, List.mem_cons, List.not_mem_nil, or_false] at ho
  unfold usedBits
  rw [h]
  obtain rfl | rfl | rfl | rfl | rfl | rfl | rfl | rfl := ho <;> rfl

theorem usedBits_immediateForm (h : opcodeOf w = o) (ho : o = 0b0001#4 ∨ o = 0b0101#4) (form : w.getLsbD 5 = true) :
    usedBits w = 0xFFFF#16 := by
  unfold usedBits
  rw [h, form]
  obtain rfl | rfl := ho <;> rfl

theorem usedBits_registerForm (h : opcodeOf w = o) (ho : o = 0b0001#4 ∨ o = 0b0101#4) (form : w.getLsbD 5 = false) :
    usedBits w = 0xFFE7#16 := by
  unfold usedBits
  rw [h, form]
  obtain rfl | rfl := ho <;> rfl

theorem usedBits_jsr (h : opcodeOf w = 0b0100#4) (form : w.getLsbD 11 = true) : usedBits w = 0xFFFF#16 := by
  unfold usedBits
  rw [h, form]
  rfl

theorem usedBits_jsrr (h : opcodeOf w = 0b0100#4) (form : w.getLsbD 11 = false) : usedBits w = 0xF9C0#16 := by
  unfold usedBits
  rw [h, form]
  rfl

theorem usedBits_illegal (h : opcodeOf w = o) (ho : o = 0b1000#4 ∨ o = 0b1101#4) : usedBits w = 0xF000#16 := by
  unfold usedBits
  rw [h]
  obtain rfl | rfl := ho <;> rfl

theorem usedBits_notReg (h : opcodeOf w = 0b1001#4) : usedBits w = 0xFFC0#16 := by
  unfold usedBits
  rw [h]
  rfl

theorem usedBits_jmp (h : opcodeOf w = 0b1100#4) : usedBits w = 0xF1C0#16 := by
  unfold usedBits
  rw [h]
  rfl

theorem usedBits_trap (h : opcodeOf w = 0b1111#4) : usedBits w = 0xF0FF#16 := by
  unfold usedBits
  rw [h]
  rfl

/-- R81: the two illegal opcodes have no well-formed word. -/
theorem not_wordWellFormed_of_illegal (h : opcodeOf w = o) (ho : o = 0b1000#4 ∨ o = 0b1101#4) :
    ¬ wordWellFormed w = true := by
  obtain rfl | rfl := ho <;> simp [wordWellFormed, h]

/-- R81: a word of a legal opcode is well-formed when its unused bits are zero, or ones for NOT. The laws for each form
below read this equation of words field by field. -/
theorem wordWellFormed_iff_of_usedBits {m : Word} (hu : usedBits w = m) (h : opcodeOf w = o)
    (ho : o ≠ 0b1101#4 ∧ o ≠ 0b1000#4) :
    wordWellFormed w = true ↔ (if o = 0b1001#4 then 0x003F#16 else 0#16) = w &&& ~~~m := by
  obtain ⟨not13, not8⟩ := ho
  rw [wordWellFormed, hu, canonicalUnused, h, eq_comm (b := w &&& ~~~m)]
  simp [not13, not8]

theorem wordWellFormed_of_all_used (hu : usedBits w = 0xFFFF#16) (h : opcodeOf w = o)
    (ho : o ≠ 0b1101#4 ∧ o ≠ 0b1000#4 ∧ o ≠ 0b1001#4) : wordWellFormed w = true := by
  obtain ⟨not13, not8, not9⟩ := ho
  rw [wordWellFormed_iff_of_usedBits hu h ⟨not13, not8⟩, if_neg not9]
  exact BitVec.and_zero.symm

theorem wordWellFormed_of_full (h : opcodeOf w = o) (ho : o ∈ fullOpcodes) : wordWellFormed w = true := by
  have legal : ∀ o ∈ fullOpcodes, o ≠ 0b1101#4 ∧ o ≠ 0b1000#4 ∧ o ≠ 0b1001#4 := by decide
  exact wordWellFormed_of_all_used (usedBits_of_full h ho) h (legal o ho)

theorem and_eq_self_of_eq_allOnes {n : Nat} {x m : BitVec n} (hm : m = BitVec.allOnes n) : x &&& m = x := by
  rw [hm, BitVec.and_allOnes]

theorem wordWellFormed_registerForm (h : opcodeOf w = o) (ho : o = 0b0001#4 ∨ o = 0b0101#4)
    (form : w.getLsbD 5 = false) : wordWellFormed w = true ↔ w.extractLsb' 3 2 = 0#2 := by
  have legal : o ≠ 0b1101#4 ∧ o ≠ 0b1000#4 ∧ o ≠ 0b1001#4 := by obtain rfl | rfl := ho <;> decide
  obtain ⟨not13, not8, not9⟩ := legal
  rw [wordWellFormed_iff_of_usedBits (usedBits_registerForm h ho form) h ⟨not13, not8⟩, if_neg not9]
  refine (append_eq_iff (x := 0#11 ++ 0#2) (y := 0#3)).trans ?_
  simp only [extractLsb'_eq_append_iff]
  simp [BitVec.extractLsb'_and, and_eq_self_of_eq_allOnes]

theorem wordWellFormed_jsrr (h : opcodeOf w = 0b0100#4) (form : w.getLsbD 11 = false) :
    wordWellFormed w = true ↔ w.extractLsb' 9 2 = 0#2 ∧ w.extractLsb' 0 6 = 0#6 := by
  rw [wordWellFormed_iff_of_usedBits (usedBits_jsrr h form) h (by decide)]
  refine (append_eq_iff (x := 0#5 ++ 0#2 ++ 0#3) (y := 0#6)).trans ?_
  simp only [extractLsb'_eq_append_iff]
  simp [BitVec.extractLsb'_and, and_eq_self_of_eq_allOnes]

theorem wordWellFormed_notReg (h : opcodeOf w = 0b1001#4) :
    wordWellFormed w = true ↔ w.extractLsb' 0 6 = 0b111111#6 := by
  rw [wordWellFormed_iff_of_usedBits (usedBits_notReg h) h (by decide)]
  refine (append_eq_iff (x := 0#10) (y := 0b111111#6)).trans ?_
  simp [BitVec.extractLsb'_and, and_eq_self_of_eq_allOnes]

theorem wordWellFormed_jmp (h : opcodeOf w = 0b1100#4) :
    wordWellFormed w = true ↔ w.extractLsb' 9 3 = 0#3 ∧ w.extractLsb' 0 6 = 0#6 := by
  rw [wordWellFormed_iff_of_usedBits (usedBits_jmp h) h (by decide)]
  refine (append_eq_iff (x := 0#4 ++ 0#3 ++ 0#3) (y := 0#6)).trans ?_
  simp only [extractLsb'_eq_append_iff]
  simp [BitVec.extractLsb'_and, and_eq_self_of_eq_allOnes]

theorem wordWellFormed_trap (h : opcodeOf w = 0b1111#4) :
    wordWellFormed w = true ↔ w.extractLsb' 8 4 = 0#4 := by
  rw [wordWellFormed_iff_of_usedBits (usedBits_trap h) h (by decide)]
  refine (append_eq_iff (x := 0#4 ++ 0#4) (y := 0#8)).trans ?_
  simp only [extractLsb'_eq_append_iff]
  simp [BitVec.extractLsb'_and, and_eq_self_of_eq_allOnes]

end

/-! ### Encode and decode are inverse (R81) -/

theorem isIllegal_iff {i : Instr} : i.isIllegal = true ↔ i = .illegal1000 ∨ i = .reserved1101 := by
  simp [Instr.isIllegal]

theorem encode_illegal {i : Instr} (h : i.isIllegal = true) : encode i = none := by
  obtain rfl | rfl := isIllegal_iff.mp h <;> rfl

theorem encode_legal {i : Instr} (h : i.isIllegal = false) : ∃ w, encode i = some w := by
  cases i with
  | illegal1000 => cases h
  | reserved1101 => cases h
  | _ => exact ⟨_, rfl⟩

theorem encodeTrap_sound {v : TrapVector} {w : Word} (h : encodeTrap v = w) :
    wordWellFormed w = true ∧ decode w = decodeTrap v := by
  obtain ⟨op, unused, rfl⟩ := encodeTrap_eq_iff.mp h
  exact ⟨(wordWellFormed_trap op).mpr unused, decode_trap op⟩

/-- R81: the word of a well-formed instruction is well-formed and decodes to it. -/
theorem encode_sound {i : Instr} {w : Word} (hi : i.wf = true) (h : encode i = some w) :
    wordWellFormed w = true ∧ decode w = i := by
  cases i with
  | br n z p off =>
    obtain ⟨op, rfl, rfl, rfl, rfl⟩ := (branchWord_eq_iff hi).mp (Option.some.inj h)
    exact ⟨wordWellFormed_of_full op (by decide), decode_br op⟩
  | addReg dr sr1 sr2 =>
    obtain ⟨op, rfl, rfl, form, unused, rfl⟩ := (registerFormWord_eq_iff (b := false)).mp (Option.some.inj h)
    exact ⟨(wordWellFormed_registerForm op (.inl rfl) form).mpr unused, decode_addReg op form⟩
  | addImm dr sr1 imm =>
    obtain ⟨op, rfl, rfl, form, rfl⟩ := (immediateFormWord_eq_iff (b := true) hi).mp (Option.some.inj h)
    exact ⟨wordWellFormed_of_all_used (usedBits_immediateForm op (.inl rfl) form) op (by decide),
      decode_addImm op form⟩
  | ld dr off =>
    obtain ⟨op, rfl, rfl⟩ := (pcRelativeWord_eq_iff hi).mp (Option.some.inj h)
    exact ⟨wordWellFormed_of_full op (by decide), decode_ld op⟩
  | st sr off =>
    obtain ⟨op, rfl, rfl⟩ := (pcRelativeWord_eq_iff hi).mp (Option.some.inj h)
    exact ⟨wordWellFormed_of_full op (by decide), decode_st op⟩
  | jsr off =>
    obtain ⟨op, form, rfl⟩ := (callOffsetWord_eq_iff (b := true) hi).mp (Option.some.inj h)
    exact ⟨wordWellFormed_of_all_used (usedBits_jsr op form) op (by decide), decode_jsr op form⟩
  | jsrr base =>
    obtain ⟨op, form, high, rfl, low⟩ := (callRegisterWord_eq_iff (b := false)).mp (Option.some.inj h)
    exact ⟨(wordWellFormed_jsrr op form).mpr ⟨high, low⟩, decode_jsrr op form⟩
  | andReg dr sr1 sr2 =>
    obtain ⟨op, rfl, rfl, form, unused, rfl⟩ := (registerFormWord_eq_iff (b := false)).mp (Option.some.inj h)
    exact ⟨(wordWellFormed_registerForm op (.inr rfl) form).mpr unused, decode_andReg op form⟩
  | andImm dr sr1 imm =>
    obtain ⟨op, rfl, rfl, form, rfl⟩ := (immediateFormWord_eq_iff (b := true) hi).mp (Option.some.inj h)
    exact ⟨wordWellFormed_of_all_used (usedBits_immediateForm op (.inr rfl) form) op (by decide),
      decode_andImm op form⟩
  | ldr dr base off =>
    obtain ⟨op, rfl, rfl, rfl⟩ := (baseOffsetWord_eq_iff hi).mp (Option.some.inj h)
    exact ⟨wordWellFormed_of_full op (by decide), decode_ldr op⟩
  | str sr base off =>
    obtain ⟨op, rfl, rfl, rfl⟩ := (baseOffsetWord_eq_iff hi).mp (Option.some.inj h)
    exact ⟨wordWellFormed_of_full op (by decide), decode_str op⟩
  | notReg dr sr =>
    obtain ⟨op, rfl, rfl, unused⟩ := notWord_eq_iff.mp (Option.some.inj h)
    exact ⟨(wordWellFormed_notReg op).mpr unused, decode_notReg op⟩
  | ldi dr off =>
    obtain ⟨op, rfl, rfl⟩ := (pcRelativeWord_eq_iff hi).mp (Option.some.inj h)
    exact ⟨wordWellFormed_of_full op (by decide), decode_ldi op⟩
  | sti sr off =>
    obtain ⟨op, rfl, rfl⟩ := (pcRelativeWord_eq_iff hi).mp (Option.some.inj h)
    exact ⟨wordWellFormed_of_full op (by decide), decode_sti op⟩
  | jmp base =>
    obtain ⟨op, high, rfl, low⟩ := jumpWord_eq_iff.mp (Option.some.inj h)
    exact ⟨(wordWellFormed_jmp op).mpr ⟨high, low⟩, decode_jmp op⟩
  | lea dr off =>
    obtain ⟨op, rfl, rfl⟩ := (pcRelativeWord_eq_iff hi).mp (Option.some.inj h)
    exact ⟨wordWellFormed_of_full op (by decide), decode_lea op⟩
  | trapTable vec =>
    rw [← decodeTrap_of_no_row (by simpa [Instr.wf] using hi)]
    exact encodeTrap_sound (Option.some.inj h)
  | trapGetc => exact encodeTrap_sound (Option.some.inj h)
  | trapOut => exact encodeTrap_sound (Option.some.inj h)
  | trapPuts => exact encodeTrap_sound (Option.some.inj h)
  | trapHalt => exact encodeTrap_sound (Option.some.inj h)
  | illegal1000 => cases h
  | reserved1101 => cases h

/-- R81: a well-formed word is the word of what it decodes to. -/
theorem encode_decode {w : Word} (hw : wordWellFormed w = true) : encode (decode w) = some w := by
  apply word_cases w
  case br =>
    intro op
    rw [decode_br op]
    exact congrArg some ((branchWord_eq_iff (fitsSigned_off9Of w)).mpr ⟨op, rfl, rfl, rfl, rfl⟩)
  case addReg =>
    intro op form
    rw [decode_addReg op form]
    have unused := (wordWellFormed_registerForm op (.inl rfl) form).mp hw
    exact congrArg some ((registerFormWord_eq_iff (b := false)).mpr ⟨op, rfl, rfl, form, unused, rfl⟩)
  case addImm =>
    intro op form
    rw [decode_addImm op form]
    exact congrArg some ((immediateFormWord_eq_iff (b := true) (fitsSigned_imm5Of w)).mpr ⟨op, rfl, rfl, form, rfl⟩)
  case ld =>
    intro op
    rw [decode_ld op]
    exact congrArg some ((pcRelativeWord_eq_iff (fitsSigned_off9Of w)).mpr ⟨op, rfl, rfl⟩)
  case st =>
    intro op
    rw [decode_st op]
    exact congrArg some ((pcRelativeWord_eq_iff (fitsSigned_off9Of w)).mpr ⟨op, rfl, rfl⟩)
  case jsr =>
    intro op form
    rw [decode_jsr op form]
    exact congrArg some ((callOffsetWord_eq_iff (b := true) (fitsSigned_off11Of w)).mpr ⟨op, form, rfl⟩)
  case jsrr =>
    intro op form
    rw [decode_jsrr op form]
    obtain ⟨high, low⟩ := (wordWellFormed_jsrr op form).mp hw
    exact congrArg some ((callRegisterWord_eq_iff (b := false)).mpr ⟨op, form, high, rfl, low⟩)
  case andReg =>
    intro op form
    rw [decode_andReg op form]
    have unused := (wordWellFormed_registerForm op (.inr rfl) form).mp hw
    exact congrArg some ((registerFormWord_eq_iff (b := false)).mpr ⟨op, rfl, rfl, form, unused, rfl⟩)
  case andImm =>
    intro op form
    rw [decode_andImm op form]
    exact congrArg some ((immediateFormWord_eq_iff (b := true) (fitsSigned_imm5Of w)).mpr ⟨op, rfl, rfl, form, rfl⟩)
  case ldr =>
    intro op
    rw [decode_ldr op]
    exact congrArg some ((baseOffsetWord_eq_iff (fitsSigned_off6Of w)).mpr ⟨op, rfl, rfl, rfl⟩)
  case str =>
    intro op
    rw [decode_str op]
    exact congrArg some ((baseOffsetWord_eq_iff (fitsSigned_off6Of w)).mpr ⟨op, rfl, rfl, rfl⟩)
  case illegal1000 => exact fun op => absurd hw (not_wordWellFormed_of_illegal op (.inl rfl))
  case notReg =>
    intro op
    rw [decode_notReg op]
    exact congrArg some (notWord_eq_iff.mpr ⟨op, rfl, rfl, (wordWellFormed_notReg op).mp hw⟩)
  case ldi =>
    intro op
    rw [decode_ldi op]
    exact congrArg some ((pcRelativeWord_eq_iff (fitsSigned_off9Of w)).mpr ⟨op, rfl, rfl⟩)
  case sti =>
    intro op
    rw [decode_sti op]
    exact congrArg some ((pcRelativeWord_eq_iff (fitsSigned_off9Of w)).mpr ⟨op, rfl, rfl⟩)
  case jmp =>
    intro op
    rw [decode_jmp op]
    obtain ⟨high, low⟩ := (wordWellFormed_jmp op).mp hw
    exact congrArg some (jumpWord_eq_iff.mpr ⟨op, high, rfl, low⟩)
  case reserved1101 => exact fun op => absurd hw (not_wordWellFormed_of_illegal op (.inr rfl))
  case lea =>
    intro op
    rw [decode_lea op]
    exact congrArg some ((pcRelativeWord_eq_iff (fitsSigned_off9Of w)).mpr ⟨op, rfl, rfl⟩)
  case trap =>
    intro op
    rw [decode_trap op, encode_decodeTrap]
    exact congrArg some (encodeTrap_eq_iff.mpr ⟨op, (wordWellFormed_trap op).mp hw, rfl⟩)

/-- Settles O5: a legal instruction has a word, and the two inverse laws hold row by row of R77. -/
theorem decodeAndEncodeAgree : Obligations.DecodeAndEncodeAgree := by
  refine ⟨fun i hi legal => ?instruction, fun w => encode_decode, fun i => encode_illegal⟩
  obtain ⟨w, h⟩ := encode_legal legal
  exact ⟨w, h, encode_sound hi h⟩

/-! ### The opcode map with the fields read as numbers (R77) -/

theorem opcodeOf_of_div {w : Word} {k : Nat} (h : w.toNat / 4096 = k) : opcodeOf w = BitVec.ofNat 4 k := by
  apply BitVec.eq_of_toNat_eq
  rw [← h, opcodeOf, BitVec.extractLsb'_toNat, BitVec.toNat_ofNat, Nat.shiftRight_eq_div_pow]

theorem regOf_extractLsb' (w : Word) (k : Nat) : regOf (w.extractLsb' k 3) = Fin.ofNat 8 (w.toNat / 2 ^ k) := by
  rw [regOf, BitVec.toFin_extractLsb', Nat.shiftRight_eq_div_pow]

theorem getLsbD_eq_decide_div (w : Word) (k : Nat) : w.getLsbD k = decide (w.toNat / 2 ^ k % 2 = 1) := by
  rw [← BitVec.testBit_toNat, Nat.testBit_eq_decide_div_mod_eq]

theorem extractLsb'_zero_eq_ofNat (w : Word) (n : Nat) : w.extractLsb' 0 n = BitVec.ofNat n w.toNat := rfl

/-- Settles O2: with the fields read from the word, each clause is the decoder's law for that opcode. -/
theorem decodeFollowsOpcodeMap : Obligations.DecodeFollowsOpcodeMap := by
  intro w
  simp only [← regOf_extractLsb', ← getLsbD_eq_decide_div, ← extractLsb'_zero_eq_ofNat]
  refine ⟨fun h => decode_br (opcodeOf_of_div h), fun h => decode_addReg (opcodeOf_of_div h),
    fun h => decode_addImm (opcodeOf_of_div h), fun h => decode_ld (opcodeOf_of_div h),
    fun h => decode_st (opcodeOf_of_div h), fun h => decode_jsr (opcodeOf_of_div h),
    fun h => decode_jsrr (opcodeOf_of_div h), fun h => decode_andReg (opcodeOf_of_div h),
    fun h => decode_andImm (opcodeOf_of_div h), fun h => decode_ldr (opcodeOf_of_div h),
    fun h => decode_str (opcodeOf_of_div h), fun h => decode_illegal1000 (opcodeOf_of_div h),
    fun h => decode_notReg (opcodeOf_of_div h), fun h => decode_ldi (opcodeOf_of_div h),
    fun h => decode_sti (opcodeOf_of_div h), fun h => decode_jmp (opcodeOf_of_div h),
    fun h => decode_reserved1101 (opcodeOf_of_div h), fun h => decode_lea (opcodeOf_of_div h), fun h => ?trap⟩
  rw [decode_trap (opcodeOf_of_div h), trapVectorOf_decodeTrap]

/-! ### What the decoder gives is well-formed (R74, R76) -/

/-- Settles O3: an immediate or offset is the sign extension of its field, and a vector is in the table form only
when it has no row. -/
theorem decodedInstructionsAreWellFormed : Obligations.DecodedInstructionsAreWellFormed := by
  intro w
  apply word_cases w
  case br => exact fun op => decode_br op ▸ fitsSigned_off9Of w
  case addReg => exact fun op form => decode_addReg op form ▸ rfl
  case addImm => exact fun op form => decode_addImm op form ▸ fitsSigned_imm5Of w
  case ld => exact fun op => decode_ld op ▸ fitsSigned_off9Of w
  case st => exact fun op => decode_st op ▸ fitsSigned_off9Of w
  case jsr => exact fun op form => decode_jsr op form ▸ fitsSigned_off11Of w
  case jsrr => exact fun op form => decode_jsrr op form ▸ rfl
  case andReg => exact fun op form => decode_andReg op form ▸ rfl
  case andImm => exact fun op form => decode_andImm op form ▸ fitsSigned_imm5Of w
  case ldr => exact fun op => decode_ldr op ▸ fitsSigned_off6Of w
  case str => exact fun op => decode_str op ▸ fitsSigned_off6Of w
  case illegal1000 => exact fun op => decode_illegal1000 op ▸ rfl
  case notReg => exact fun op => decode_notReg op ▸ rfl
  case ldi => exact fun op => decode_ldi op ▸ fitsSigned_off9Of w
  case sti => exact fun op => decode_sti op ▸ fitsSigned_off9Of w
  case jmp => exact fun op => decode_jmp op ▸ rfl
  case reserved1101 => exact fun op => decode_reserved1101 op ▸ rfl
  case lea => exact fun op => decode_lea op ▸ fitsSigned_off9Of w
  case trap => exact fun op => decode_trap op ▸ decodeTrap_wf _

/-! ### Words that agree on the used bits (R78) -/

section
variable {w v m : Word}

theorem extractLsb'_eq_of_masked_eq (h : w &&& m = v &&& m) (k n : Nat) (hm : m.extractLsb' k n = BitVec.allOnes n) :
    w.extractLsb' k n = v.extractLsb' k n := by
  simpa only [BitVec.extractLsb'_and, hm, BitVec.and_allOnes] using congrArg (BitVec.extractLsb' k n) h

theorem getLsbD_eq_of_masked_eq (h : w &&& m = v &&& m) (k : Nat) (hm : m.getLsbD k = true) :
    w.getLsbD k = v.getLsbD k := by
  simpa only [BitVec.getLsbD_and, hm, Bool.and_true] using congrArg (BitVec.getLsbD · k) h

theorem opcodeOf_eq_of_masked_eq {o : BitVec 4} (h : w &&& m = v &&& m) (op : opcodeOf w = o)
    (hm : m.extractLsb' 12 4 = BitVec.allOnes 4) : opcodeOf v = o :=
  (extractLsb'_eq_of_masked_eq h 12 4 hm).symm.trans op

theorem regMid_eq_of_masked_eq (h : w &&& m = v &&& m) (hm : m.extractLsb' 6 3 = BitVec.allOnes 3) :
    regMid w = regMid v :=
  congrArg regOf (extractLsb'_eq_of_masked_eq h 6 3 hm)

theorem regHi_eq_of_masked_eq (h : w &&& m = v &&& m) (hm : m.extractLsb' 9 3 = BitVec.allOnes 3) :
    regHi w = regHi v :=
  congrArg regOf (extractLsb'_eq_of_masked_eq h 9 3 hm)

/-- R78: words of which every bit is used decode alike because they are equal. -/
theorem decode_eq_of_all_used (h : w &&& usedBits w = v &&& usedBits w) (hu : usedBits w = 0xFFFF#16) :
    decode w = decode v := by
  rw [hu] at h
  have eq : w = v := by simpa only [BitVec.extractLsb'_eq_self] using extractLsb'_eq_of_masked_eq h 0 16 (by decide)
  rw [eq]

/-- R78: the register forms leave bits 4:3 unread. -/
theorem registerForm_fields_eq {o : BitVec 4} (h : w &&& usedBits w = v &&& usedBits w) (op : opcodeOf w = o)
    (ho : o = 0b0001#4 ∨ o = 0b0101#4) (form : w.getLsbD 5 = false) :
    opcodeOf v = o ∧ v.getLsbD 5 = false ∧ regHi w = regHi v ∧ regMid w = regMid v ∧ regLo w = regLo v := by
  rw [usedBits_registerForm op ho form] at h
  exact ⟨opcodeOf_eq_of_masked_eq h op (by decide), (getLsbD_eq_of_masked_eq h 5 (by decide)).symm.trans form,
    regHi_eq_of_masked_eq h (by decide), regMid_eq_of_masked_eq h (by decide),
    congrArg regOf (extractLsb'_eq_of_masked_eq h 0 3 (by decide))⟩

end

/-- Settles O4: the other word has the same opcode, form and fields, form by form of R78. -/
theorem unusedBitsAreIgnored : Obligations.UnusedBitsAreIgnored := by
  intro w v h
  apply word_cases w
  case br => exact fun op => decode_eq_of_all_used h (usedBits_of_full op (by decide))
  case addReg =>
    intro op form
    obtain ⟨opV, formV, hi, mid, lo⟩ := registerForm_fields_eq h op (.inl rfl) form
    rw [decode_addReg op form, decode_addReg opV formV, hi, mid, lo]
  case addImm => exact fun op form => decode_eq_of_all_used h (usedBits_immediateForm op (.inl rfl) form)
  case ld => exact fun op => decode_eq_of_all_used h (usedBits_of_full op (by decide))
  case st => exact fun op => decode_eq_of_all_used h (usedBits_of_full op (by decide))
  case jsr => exact fun op form => decode_eq_of_all_used h (usedBits_jsr op form)
  case jsrr =>
    intro op form
    rw [usedBits_jsrr op form] at h
    have opV : opcodeOf v = 0b0100#4 := opcodeOf_eq_of_masked_eq h op (by decide)
    have formV : v.getLsbD 11 = false := (getLsbD_eq_of_masked_eq h 11 (by decide)).symm.trans form
    rw [decode_jsrr op form, decode_jsrr opV formV, regMid_eq_of_masked_eq h (by decide)]
  case andReg =>
    intro op form
    obtain ⟨opV, formV, hi, mid, lo⟩ := registerForm_fields_eq h op (.inr rfl) form
    rw [decode_andReg op form, decode_andReg opV formV, hi, mid, lo]
  case andImm => exact fun op form => decode_eq_of_all_used h (usedBits_immediateForm op (.inr rfl) form)
  case ldr => exact fun op => decode_eq_of_all_used h (usedBits_of_full op (by decide))
  case str => exact fun op => decode_eq_of_all_used h (usedBits_of_full op (by decide))
  case illegal1000 =>
    intro op
    rw [usedBits_illegal op (.inl rfl)] at h
    rw [decode_illegal1000 op, decode_illegal1000 (opcodeOf_eq_of_masked_eq h op (by decide))]
  case notReg =>
    intro op
    rw [usedBits_notReg op] at h
    rw [decode_notReg op, decode_notReg (opcodeOf_eq_of_masked_eq h op (by decide)),
      regHi_eq_of_masked_eq h (by decide), regMid_eq_of_masked_eq h (by decide)]
  case ldi => exact fun op => decode_eq_of_all_used h (usedBits_of_full op (by decide))
  case sti => exact fun op => decode_eq_of_all_used h (usedBits_of_full op (by decide))
  case jmp =>
    intro op
    rw [usedBits_jmp op] at h
    rw [decode_jmp op, decode_jmp (opcodeOf_eq_of_masked_eq h op (by decide)), regMid_eq_of_masked_eq h (by decide)]
  case reserved1101 =>
    intro op
    rw [usedBits_illegal op (.inr rfl)] at h
    rw [decode_reserved1101 op, decode_reserved1101 (opcodeOf_eq_of_masked_eq h op (by decide))]
  case lea => exact fun op => decode_eq_of_all_used h (usedBits_of_full op (by decide))
  case trap =>
    intro op
    rw [usedBits_trap op] at h
    rw [decode_trap op, decode_trap (opcodeOf_eq_of_masked_eq h op (by decide)),
      extractLsb'_eq_of_masked_eq h 0 8 (by decide)]

/-! ### Sample words (R73, R75, R87) -/

/-- Settles O6: the decoder run on each of the ten words. -/
theorem sampleWordsDecode : Obligations.SampleWordsDecode := by
  unfold Obligations.SampleWordsDecode
  decide

end Sys2Proof
end

section
/-! PROOFS. The statements of the family 40_step_cycle: what a step runs (R111 to R113), where it leaves the PC (R116),
what a failed step leaves (R115, R120) and the halted machine (R33, R119). -/

namespace Sys2Proof.Machine

/-! ### The instruction a step runs (R111 to R113) -/

/-- Settles O39: the three ways a step can go, by the latch and the bound on the PC. -/
theorem stepRunsDecodedInstruction : Obligations.StepRunsDecodedInstruction :=
  fun _ => ⟨step_inBounds, step_outOfBounds, step_halted⟩

/-- R70: every 16-bit number is a row's word, and is read as the decoder reads it. -/
theorem decodeTableWord_of_lt {w : Nat} (h : w < 65536) : decodeTableWord 16 w = some (decode (BitVec.ofNat 16 w)) := by
  simp [decodeTableWord, h]

/-- R113: the word at the PC is what a step decodes, here the one just placed. -/
theorem step_placeAtPc {s : State} (w : Word) (h : s.inBounds s.pc) :
    step (s.placeAtPc w) = exec (decode w) (s.placeAtPc w) := by
  have placed : (s.placeAtPc w).mem.read (s.placeAtPc w).pc.toNat = w := by simp
  have inBounds : (s.placeAtPc w).inBounds (s.placeAtPc w).pc := h
  rw [step_inBounds (s.placeAtPc_halted w) inBounds, placed]

/-- Settles O40: placing writes the memory and clears the latch, and the step fetches the word placed. -/
theorem placedWordIsExecuted : Obligations.PlacedWordIsExecuted :=
  fun s w inBounds fits => ⟨decode (BitVec.ofNat 16 w), decodeTableWord_of_lt fits,
    step_placeAtPc (BitVec.ofNat 16 w) inBounds, ⟨s.readReg_placeAtPc _, s.placeAtPc_cc _⟩, s.placeAtPc_pc _⟩

/-! ### The PC after an instruction (R116) -/

/-- A completed instruction commits the PC to the next word, unless it is one that assigns a target. -/
theorem exec_pc_of_no_transfer {i : Instr} {s t : State} (h : exec i s = .next t) (stays : s.mayTransfer i = false) :
    t.pc = s.pc + 1#16 := by
  obtain ⟨_, _, -, -, rfl⟩ | ⟨_, -, transfer, -⟩ | ⟨_, -, transfer, -⟩ | ⟨_, _, -, -, -, -, rfl⟩ | ⟨_, _, -, -, -, rfl⟩ |
    ⟨_, -, -, -, rfl⟩ | ⟨_, -, -, -, -, rfl⟩ := exec_cases h
  · rfl
  · exact absurd transfer (by simp [stays])
  · exact absurd transfer (by simp [stays])
  · rfl
  · rfl
  · rfl
  · rfl

/-- Settles O41: every instruction that is no transfer retires or halts, and both commit the next PC; the parameters
are part of `exec_memory_cases`. -/
theorem pcAdvancesUnlessTransferred : Obligations.PcAdvancesUnlessTransferred :=
  fun _ _ _ h => ⟨exec_pc_of_no_transfer h, (exec_memory_cases h).1⟩

/-! ### What a step request answers (R15, R115) -/

theorem State.stepRequest_of_next {s t : State} (h : step s = .next t) :
    s.stepRequest = (outcomeOf (.next t), t) := by
  rw [State.stepRequest, h]

theorem State.stepRequest_of_fault {s : State} {f : Fault} (h : step s = .fault f) :
    s.stepRequest = (outcomeOf (.fault f), s) := by
  rw [State.stepRequest, h]

theorem State.stepRequest_fst (s : State) : s.stepRequest.1 = outcomeOf (step s) := by
  unfold State.stepRequest
  cases step s <;> rfl

/-- R190: only a fault of the closed failures is reported as failed. -/
theorem outcomeOf_eq_failed_iff {r : Result} {f : Fault} :
    outcomeOf r = some (.failed f) ↔ r = .fault f ∧ f.isFailure = true := by
  cases r with
  | next t => cases halted : t.halted <;> simp [outcomeOf, halted]
  | refused => simp [outcomeOf]
  | fault g =>
    by_cases same : g = f
    · subst same
      simp [outcomeOf]
    · simp [outcomeOf, same]

/-- Settles O42: a request answered failed was a fault, which leaves the state as it was, so a second request is the
same request. -/
theorem failedStepChangesNothing : Obligations.FailedStepChangesNothing := by
  intro s t f h
  have reported : outcomeOf (step s) = some (.failed f) := by rw [← s.stepRequest_fst, h]
  obtain ⟨fault, failure⟩ := outcomeOf_eq_failed_iff.mp reported
  obtain rfl : t = s := congrArg Prod.snd (h.symm.trans (State.stepRequest_of_fault fault))
  exact ⟨rfl, h, fault, failure⟩

/-! ### The halted machine (R33, R119) -/

/-- A machine that a step leaves in the same state stays in it for any number of steps. -/
theorem core_run_of_step_self {M : Host.Core} {s : M.State} (h : M.step s = .next s) (k : Nat) :
    M.run k s = .next s := by
  induction k with
  | zero => rfl
  | succ k ih => simp only [Host.Core.run, h, ih]

/-- Settles O52: a step of a halted machine answers the state itself, with the latch still set for the report to read. -/
theorem haltedIsTerminal : Obligations.HaltedIsTerminal := by
  intro s halted
  have stays : step s = .next s := step_halted halted
  refine ⟨core_run_of_step_self (M := Sys2Proof.core) stays, ?answer, s.hostReset_halted⟩
  case answer => simp [State.stepRequest_of_next stays, outcomeOf, halted]

end Sys2Proof.Machine
end

section
/-! PROOFS. The statements of the family 41_operate: ADD, AND and NOT (R130 to R135). -/

namespace Sys2Proof

/-! ### The words of the five operates (R73, R78) -/

section
variable {w : Word} {o : BitVec 4} {dr sr1 sr2 : RegAddr} {b : Bool} {imm5 : BitVec 5} {unused2 : BitVec 2}
  {unused6 : BitVec 6}

theorem immediateFormWord_fields (h : o ++ regBits dr ++ regBits sr1 ++ BitVec.ofBool b ++ imm5 = w) :
    opcodeOf w = o ∧ regHi w = dr ∧ regMid w = sr1 ∧ w.getLsbD 5 = b ∧ imm5Of w = sext imm5 := by
  rw [← extractLsb'_sext imm5 (by decide)] at h
  exact (immediateFormWord_eq_iff (fitsSigned_sext imm5 (by decide) (by decide))).mp h

theorem decode_addRegWord (h : 0b0001#4 ++ regBits dr ++ regBits sr1 ++ 0b0#1 ++ unused2 ++ regBits sr2 = w) :
    decode w = .addReg dr sr1 sr2 := by
  obtain ⟨op, rfl, rfl, form, -, rfl⟩ := (registerFormWord_eq_iff (b := false)).mp h
  exact decode_addReg op form

theorem decode_addImmWord (h : 0b0001#4 ++ regBits dr ++ regBits sr1 ++ 0b1#1 ++ imm5 = w) :
    decode w = .addImm dr sr1 (sext imm5) := by
  obtain ⟨op, rfl, rfl, form, imm⟩ := immediateFormWord_fields (b := true) h
  rw [← imm, decode_addImm op form]

theorem decode_andRegWord (h : 0b0101#4 ++ regBits dr ++ regBits sr1 ++ 0b0#1 ++ unused2 ++ regBits sr2 = w) :
    decode w = .andReg dr sr1 sr2 := by
  obtain ⟨op, rfl, rfl, form, -, rfl⟩ := (registerFormWord_eq_iff (b := false)).mp h
  exact decode_andReg op form

theorem decode_andImmWord (h : 0b0101#4 ++ regBits dr ++ regBits sr1 ++ 0b1#1 ++ imm5 = w) :
    decode w = .andImm dr sr1 (sext imm5) := by
  obtain ⟨op, rfl, rfl, form, imm⟩ := immediateFormWord_fields (b := true) h
  rw [← imm, decode_andImm op form]

theorem decode_notRegWord (h : 0b1001#4 ++ regBits dr ++ regBits sr1 ++ unused6 = w) :
    decode w = .notReg dr sr1 := by
  obtain ⟨op, rfl, rfl, -⟩ := notWord_eq_iff.mp h
  exact decode_notReg op

end

end Sys2Proof

namespace Sys2Proof.Machine

/-! ### The meaning of each operate is one register write and the commit -/

section
variable (s : State) (dr sr1 sr2 : RegAddr) (imm : Word)

theorem exec_addReg : exec (.addReg dr sr1 sr2) s = operate s dr (s.readReg sr1 + s.readReg sr2) := rfl

theorem exec_addImm : exec (.addImm dr sr1 imm) s = operate s dr (s.readReg sr1 + imm) := rfl

theorem exec_andReg : exec (.andReg dr sr1 sr2) s = operate s dr (s.readReg sr1 &&& s.readReg sr2) := rfl

theorem exec_andImm : exec (.andImm dr sr1 imm) s = operate s dr (s.readReg sr1 &&& imm) := rfl

theorem exec_notReg : exec (.notReg dr sr1) s = operate s dr (~~~(s.readReg sr1)) := rfl

/-- An operate completes: it writes its destination, goes on to the next word and changes nothing else. -/
theorem operate_completes (v : Word) :
    ∃ t, operate s dr v = .next t ∧ WroteReg s t dr v ∧ t.pc = s.pc + 1#16 ∧ KeptRest s t :=
  ⟨(s.writeReg dr v).retire, rfl, s.writeReg_wrote dr v, rfl, fun _ => rfl, ⟨rfl, rfl⟩, rfl, rfl⟩

/-- R132, R133: an operate that writes a conjunction conjoins each bit. -/
theorem operate_and_completes (x y : Word) :
    ∃ t, operate s dr (x &&& y) = .next t ∧ WroteReg s t dr (x &&& y) ∧
      (∀ k, (t.readReg dr).getLsbD k = (x.getLsbD k && y.getLsbD k)) ∧ t.pc = s.pc + 1#16 ∧ KeptRest s t := by
  obtain ⟨t, completes, wrote, pc, rest⟩ := operate_completes s dr (x &&& y)
  have ⟨result, _, _⟩ := wrote
  exact ⟨t, completes, wrote, fun k => by rw [result, BitVec.getLsbD_and], pc, rest⟩

/-- R134: an operate that writes a complement inverts each of the 16 bits. -/
theorem operate_not_completes (x : Word) :
    ∃ t, operate s dr (~~~x) = .next t ∧ WroteReg s t dr (~~~x) ∧
      (∀ k, k < 16 → (t.readReg dr).getLsbD k = !x.getLsbD k) ∧ t.pc = s.pc + 1#16 ∧ KeptRest s t := by
  obtain ⟨t, completes, wrote, pc, rest⟩ := operate_completes s dr (~~~x)
  have ⟨result, _, _⟩ := wrote
  exact ⟨t, completes, wrote, fun k hk => by simp [result, hk], pc, rest⟩

end

/-! ### The obligations -/

/-- Settles O9: the word has ADD's fields whatever its bits 4:3, and the meaning is one operate. -/
theorem addRegisterForm : Obligations.AddRegisterForm := by
  intro dr sr1 sr2
  refine ⟨fun _ => decode_addRegWord rfl, fun s => ?meaning⟩
  rw [exec_addReg, BitVec.add_def]
  exact operate_completes ..

/-- Settles O10: the word has ADD's fields with the immediate extended, and the meaning is one operate. -/
theorem addImmediateForm : Obligations.AddImmediateForm := by
  intro dr sr1
  refine ⟨fun _ => decode_addImmWord rfl, fun imm s => ?meaning⟩
  rw [exec_addImm, BitVec.add_def]
  exact operate_completes ..

/-- Settles O11: the word has AND's fields whatever its bits 4:3, and the meaning is one operate. -/
theorem andRegisterForm : Obligations.AndRegisterForm := by
  intro dr sr1 sr2
  refine ⟨fun _ => decode_andRegWord rfl, fun s => ?meaning⟩
  rw [exec_andReg]
  exact operate_and_completes ..

/-- Settles O12: the word has AND's fields with the immediate extended, and the meaning is one operate. -/
theorem andImmediateForm : Obligations.AndImmediateForm := by
  intro dr sr1
  refine ⟨fun _ => decode_andImmWord rfl, fun imm s => ?meaning⟩
  rw [exec_andImm]
  exact operate_and_completes ..

/-- Settles O13: the word has NOT's fields whatever its low six bits, and the meaning is one operate. -/
theorem notComplementsEveryBit : Obligations.NotComplementsEveryBit := by
  intro dr sr
  refine ⟨fun _ => decode_notRegWord rfl, fun s => ?meaning⟩
  rw [exec_notReg]
  exact operate_not_completes ..

/-- Settles O14: the word written is the sum of the two words, which `BitVec.toNat_add` and `BitVec.toInt_add` read
both ways. -/
theorem addWrapsInBothReadings : Obligations.AddWrapsInBothReadings := by
  intro dr sr1 sr2 s
  rw [exec_addReg]
  obtain ⟨t, completes, ⟨result, -⟩, -⟩ := operate_completes s dr (s.readReg sr1 + s.readReg sr2)
  refine ⟨t, completes, ?unsigned, ?signed⟩
  case unsigned => rw [result, BitVec.toNat_add]
  case signed => rw [result, BitVec.toInt_add]

end Sys2Proof.Machine
end

section
/-! PROOFS. The statements of the family 42_control: BR, JMP, JSR and JSRR (R140 to R145) and the return from a
subroutine (R144, R201). -/

namespace Sys2Proof

/-! ### The words of the four control instructions (R73, R78) -/

section
variable {w : Word} {base : RegAddr}

theorem decode_brWord {n z p : Bool} {off9 : BitVec 9}
    (h : 0b0000#4 ++ BitVec.ofBool n ++ BitVec.ofBool z ++ BitVec.ofBool p ++ off9 = w) :
    decode w = .br n z p (sext off9) := by
  rw [← extractLsb'_sext off9 (by decide)] at h
  obtain ⟨op, rfl, rfl, rfl, off⟩ := (branchWord_eq_iff (fitsSigned_sext off9 (by decide) (by decide))).mp h
  rw [← off, decode_br op]

theorem decode_jmpWord {u : BitVec 3} {v : BitVec 6} (h : 0b1100#4 ++ u ++ regBits base ++ v = w) :
    decode w = .jmp base := by
  obtain ⟨op, -, rfl, -⟩ := jumpWord_eq_iff.mp h
  exact decode_jmp op

theorem decode_jsrWord {off11 : BitVec 11} (h : 0b0100#4 ++ 0b1#1 ++ off11 = w) :
    decode w = .jsr (sext off11) := by
  rw [← extractLsb'_sext off11 (by decide)] at h
  obtain ⟨op, form, off⟩ :=
    (callOffsetWord_eq_iff (b := true) (fitsSigned_sext off11 (by decide) (by decide))).mp h
  rw [← off, decode_jsr op form]

theorem decode_jsrrWord {u : BitVec 2} {v : BitVec 6} (h : 0b0100#4 ++ 0b0#1 ++ u ++ regBits base ++ v = w) :
    decode w = .jsrr base := by
  obtain ⟨op, form, -, rfl, -⟩ := (callRegisterWord_eq_iff (b := false)).mp h
  exact decode_jsrr op form

end

end Sys2Proof

namespace Sys2Proof.Machine

/-! ### The meaning of each transfer is a jump or a subroutine jump -/

section
variable {i : Instr} {s : State} {a : Word} (n z p : Bool) (base : RegAddr) (off : Word)

/-- R140: a branch mask meets the condition codes when the bit of the current flag is set. -/
theorem branchTaken_iff {n z p : Bool} {c : Cond} :
    branchTaken n z p c = true ↔ (n = true ∧ c = .n) ∨ (z = true ∧ c = .z) ∨ (p = true ∧ c = .p) := by
  simp [branchTaken, Cond.flagN, Cond.flagZ, Cond.flagP, or_assoc]

theorem exec_br : exec (.br n z p off) s =
    .next (s.setPc (if branchTaken n z p s.cc then s.pc + 1#16 + off else s.pc + 1#16)) := by
  rw [apply_ite s.setPc]
  rfl

theorem exec_jmp : exec (.jmp base) s = .next (s.setPc (s.readReg base)) := rfl

theorem exec_jsr : exec (.jsr off) s = .next (s.callTo (s.pc + 1#16 + off)) := rfl

theorem exec_jsrr : exec (.jsrr base) s = .next (s.callTo (s.readReg base)) := rfl

/-- An instruction whose meaning is a jump sets the PC and changes nothing else. -/
theorem jump_completes (h : exec i s = .next (s.setPc a)) :
    ∃ t, exec i s = .next t ∧ t.pc = a ∧ KeptRegs s t ∧ KeptRest s t :=
  ⟨s.setPc a, h, rfl, ⟨fun _ => rfl, rfl⟩, fun _ => rfl, ⟨rfl, rfl⟩, rfl, rfl⟩

/-- An instruction whose meaning is a subroutine jump writes the return address into R7, sets the PC and changes
nothing else. -/
theorem call_completes (h : exec i s = .next (s.callTo a)) :
    ∃ t, exec i s = .next t ∧ WroteReg s t 7 (s.pc + 1#16) ∧ t.pc = a ∧ KeptRest s t :=
  ⟨s.callTo a, h, s.writeReg_wrote linkReg s.nextPc, rfl, fun _ => rfl, ⟨rfl, rfl⟩, rfl, rfl⟩

/-- R145 (d): the transfers other than a TRAP are BR, JMP, JSR and JSRR, and each jumps, with or without a link, in
every state. -/
theorem exec_transfer (transfer : s.mayTransfer i = true) (noTrap : trapVectorOf i = none) :
    (∃ a, exec i s = .next (s.setPc a)) ∨ ∃ a, exec i s = .next (s.callTo a) := by
  have noTable : s.isTableTrap i = false := by simp [State.isTableTrap, noTrap]
  cases i with
  | br n z p off => exact .inl ⟨_, exec_br n z p off⟩
  | jmp base => exact .inl ⟨_, exec_jmp base⟩
  | jsr off => exact .inr ⟨_, exec_jsr off⟩
  | jsrr base => exact .inr ⟨_, exec_jsrr base⟩
  | _ => cases noTable.symm.trans transfer

/-- R145 (d): BR, JMP, JSR and JSRR complete in every state. -/
theorem transfer_completes (transfer : s.mayTransfer i = true) (noTrap : trapVectorOf i = none) :
    ∃ t, exec i s = .next t ∧ KeptRest s t := by
  obtain ⟨a, jump⟩ | ⟨a, call⟩ := exec_transfer transfer noTrap
  · obtain ⟨t, completes, -, -, rest⟩ := jump_completes jump
    exact ⟨t, completes, rest⟩
  · obtain ⟨t, completes, -, -, rest⟩ := call_completes call
    exact ⟨t, completes, rest⟩

/-- R142, R143, R172: of the instructions that complete, those that transfer and write the link register leave the
address of the next word in R7. -/
theorem readReg_link_of_call {t : State} (h : exec i s = .next t) (links : s.destination i = some linkReg)
    (transfer : s.mayTransfer i = true) : t.readReg 7 = s.pc + 1#16 := by
  obtain ⟨_, _, -, stays, -⟩ | ⟨a, -, -, rfl⟩ | ⟨_, noLink, -⟩ | ⟨_, _, -, -, stays, -⟩ | ⟨_, _, -, -, stays, -⟩ |
    ⟨_, -, -, stays, -⟩ | ⟨_, -, -, -, stays, -⟩ := exec_cases h
  · cases stays.symm.trans transfer
  · exact s.readReg_callTo a linkReg
  · cases noLink.symm.trans links
  · cases stays.symm.trans transfer
  · cases stays.symm.trans transfer
  · cases stays.symm.trans transfer
  · cases stays.symm.trans transfer

end

/-! ### The obligations -/

/-- Settles O20: the four transfers are jumps, which keep the latch and the parameters, so the next step fetches at the
target and fails there, and a fault leaves the state as it was. -/
theorem outOfBoundsTargetFailsAtNextFetch : Obligations.OutOfBoundsTargetFailsAtNextFetch := by
  intro i s transfer noTrap
  obtain ⟨t, completes, mem, ⟨cfg, latch⟩, -⟩ := transfer_completes transfer noTrap
  refine ⟨t, completes, mem, fun running outOfBounds => ?nextFetch⟩
  case nextFetch =>
    rw [State.inBounds, ← cfg] at outOfBounds
    have fails : step t = .fault (.memoryAddressOutOfBounds t.pc) :=
      step_outOfBounds (latch.trans running) outOfBounds
    exact ⟨fails, by rw [State.stepRequest_of_fault fails]⟩

/-- Settles O15: the word has BR's fields with the offset extended, and the meaning is a jump whose target the mask
chooses. -/
theorem branchTakenWhenMaskMeetsFlags : Obligations.BranchTakenWhenMaskMeetsFlags := by
  intro n z p
  refine ⟨fun _ => decode_brWord rfl, fun off s => ?meaning⟩
  obtain ⟨t, completes, target, regs, rest⟩ := jump_completes (exec_br (s := s) n z p off)
  refine ⟨t, completes, regs, rest, fun taken => ?taken, fun notTaken => ?notTaken⟩
  case taken => rw [target, if_pos (branchTaken_iff.mpr taken)]
  case notTaken => rw [target, if_neg (mt branchTaken_iff.mp notTaken)]

/-- Settles O16: the word has JMP's base whatever its unused bits, and the meaning is a jump to that register. -/
theorem jumpGoesToBaseRegister : Obligations.JumpGoesToBaseRegister :=
  fun base => ⟨fun _ _ => decode_jmpWord rfl, fun _ => jump_completes (exec_jmp base)⟩

/-- Settles O17: the word has JSR's offset extended, and the meaning is a subroutine jump relative to the next PC. -/
theorem jsrLinksAndJumps : Obligations.JsrLinksAndJumps :=
  ⟨fun _ => decode_jsrWord rfl, fun off _ => call_completes (exec_jsr off)⟩

/-- Settles O18: the word has JSRR's base whatever its unused bits, and the target of the subroutine jump is read from
the state before the link. -/
theorem jsrrLinksAndJumps : Obligations.JsrrLinksAndJumps :=
  fun base => ⟨fun _ _ => decode_jsrrWord rfl, fun _ => call_completes (exec_jsrr base)⟩

/-- Settles O19: the call left its link in R7, and JMP R7 jumps to what R7 holds. -/
theorem returnComesBackAfterCall : Obligations.ReturnComesBackAfterCall := by
  intro i s t u links transfer called held
  have link : u.readReg 7 = s.pc + 1#16 := held.trans (readReg_link_of_call called links transfer)
  obtain ⟨v, returns, target, regs, rest⟩ := jump_completes (exec_jmp (s := u) 7)
  exact ⟨v, returns, target.trans link, regs, rest⟩

end Sys2Proof.Machine
end

section
/-! PROOFS. The statements of the family 43_load_store: LD, LDI, LDR, LEA, ST, STI and STR (R150 to R157). -/

namespace Sys2Proof

/-! ### The words of the seven instructions (R73) -/

section
variable {w : Word} {o : BitVec 4} {r base : RegAddr} {off9 : BitVec 9} {off6 : BitVec 6}

theorem pcRelativeWord_fields (h : o ++ regBits r ++ off9 = w) :
    opcodeOf w = o ∧ regHi w = r ∧ off9Of w = sext off9 := by
  rw [← extractLsb'_sext off9 (by decide)] at h
  exact (pcRelativeWord_eq_iff (fitsSigned_sext off9 (by decide) (by decide))).mp h

theorem baseOffsetWord_fields (h : o ++ regBits r ++ regBits base ++ off6 = w) :
    opcodeOf w = o ∧ regHi w = r ∧ regMid w = base ∧ off6Of w = sext off6 := by
  rw [← extractLsb'_sext off6 (by decide)] at h
  exact (baseOffsetWord_eq_iff (fitsSigned_sext off6 (by decide) (by decide))).mp h

theorem decode_ldWord (h : 0b0010#4 ++ regBits r ++ off9 = w) : decode w = .ld r (sext off9) := by
  obtain ⟨op, rfl, off⟩ := pcRelativeWord_fields h
  rw [← off, decode_ld op]

theorem decode_ldiWord (h : 0b1010#4 ++ regBits r ++ off9 = w) : decode w = .ldi r (sext off9) := by
  obtain ⟨op, rfl, off⟩ := pcRelativeWord_fields h
  rw [← off, decode_ldi op]

theorem decode_ldrWord (h : 0b0110#4 ++ regBits r ++ regBits base ++ off6 = w) :
    decode w = .ldr r base (sext off6) := by
  obtain ⟨op, rfl, rfl, off⟩ := baseOffsetWord_fields h
  rw [← off, decode_ldr op]

theorem decode_leaWord (h : 0b1110#4 ++ regBits r ++ off9 = w) : decode w = .lea r (sext off9) := by
  obtain ⟨op, rfl, off⟩ := pcRelativeWord_fields h
  rw [← off, decode_lea op]

theorem decode_stWord (h : 0b0011#4 ++ regBits r ++ off9 = w) : decode w = .st r (sext off9) := by
  obtain ⟨op, rfl, off⟩ := pcRelativeWord_fields h
  rw [← off, decode_st op]

theorem decode_stiWord (h : 0b1011#4 ++ regBits r ++ off9 = w) : decode w = .sti r (sext off9) := by
  obtain ⟨op, rfl, off⟩ := pcRelativeWord_fields h
  rw [← off, decode_sti op]

theorem decode_strWord (h : 0b0111#4 ++ regBits r ++ regBits base ++ off6 = w) :
    decode w = .str r base (sext off6) := by
  obtain ⟨op, rfl, rfl, off⟩ := baseOffsetWord_fields h
  rw [← off, decode_str op]

end

end Sys2Proof

namespace Sys2Proof.Machine

/-! ### A load's and a store's end at an address in bounds and out of bounds -/

section
variable {s : State} {ea : Word} (r : RegAddr)

/-- R150 to R152: a load's end in bounds writes its destination, goes on to the next word and changes nothing else. -/
theorem loadFrom_completes (inBounds : s.inBounds ea) :
    ∃ t, loadFrom s r ea = .next t ∧ WroteReg s t r (s.mem.read ea.toNat) ∧ t.pc = s.pc + 1#16 ∧ KeptRest s t := by
  obtain ⟨-, completes⟩ := (loadFrom_cases s r ea).resolve_right fun ⟨outOfBounds, _⟩ => outOfBounds inBounds
  rw [completes]
  exact operate_completes ..

theorem loadFrom_fails (outOfBounds : ¬ s.inBounds ea) : loadFrom s r ea = .fault (.memoryAddressOutOfBounds ea) := by
  obtain ⟨-, fails⟩ := (loadFrom_cases s r ea).resolve_left fun ⟨inBounds, _⟩ => outOfBounds inBounds
  exact fails

/-- R154 to R156: a store's end in bounds stores its register's word, goes on to the next word and changes nothing
else. -/
theorem storeTo_completes (inBounds : s.inBounds ea) :
    ∃ t, storeTo s r ea = .next t ∧ StoredWord s t ea (s.readReg r) ∧ t.pc = s.pc + 1#16 ∧ KeptRegs s t ∧
      KeptControl s t ∧ KeptPorts s t := by
  obtain ⟨-, completes⟩ := (storeTo_cases s r ea).resolve_right fun ⟨outOfBounds, _⟩ => outOfBounds inBounds
  obtain ⟨-, stored⟩ := storeTo_stored completes
  exact ⟨_, completes, stored, rfl, ⟨fun _ => rfl, rfl⟩, ⟨rfl, rfl⟩, rfl, rfl⟩

theorem storeTo_fails (outOfBounds : ¬ s.inBounds ea) : storeTo s r ea = .fault (.memoryAddressOutOfBounds ea) := by
  obtain ⟨-, fails⟩ := (storeTo_cases s r ea).resolve_left fun ⟨inBounds, _⟩ => outOfBounds inBounds
  exact fails

end

/-! ### The meaning of each instruction is a load's end, a store's end or one register write (R157) -/

section
variable {s : State} (r base : RegAddr) (off : Word)

theorem exec_ld : exec (.ld r off) s = loadFrom s r (s.pc + 1#16 + off) := rfl

theorem exec_ldr : exec (.ldr r base off) s = loadFrom s r (s.readReg base + off) := rfl

theorem exec_lea : exec (.lea r off) s = operate s r (s.pc + 1#16 + off) := rfl

theorem exec_st : exec (.st r off) s = storeTo s r (s.pc + 1#16 + off) := rfl

theorem exec_str : exec (.str r base off) s = storeTo s r (s.readReg base + off) := rfl

/-- R157: with the PC-relative address in bounds an indirect access goes on with the pointer held there. -/
theorem orFail_indirect_inBounds (k : Word → Result) (inBounds : s.inBounds (s.pc + 1#16 + off)) :
    orFail (s.indirect off) k = k (s.mem.read (s.pc + 1#16 + off).toNat) := by
  obtain ⟨-, goesOn⟩ := (indirect_cases s off k).resolve_right fun ⟨outOfBounds, _⟩ => outOfBounds inBounds
  exact goesOn

/-- R157: with the PC-relative address out of bounds an indirect access ends there. -/
theorem orFail_indirect_outOfBounds (k : Word → Result) (outOfBounds : ¬ s.inBounds (s.pc + 1#16 + off)) :
    orFail (s.indirect off) k = .fault (.memoryAddressOutOfBounds (s.pc + 1#16 + off)) := by
  obtain ⟨-, fails⟩ := (indirect_cases s off k).resolve_left fun ⟨inBounds, _⟩ => outOfBounds inBounds
  exact fails

theorem exec_ldi : exec (.ldi r off) s = orFail (s.indirect off) (loadFrom s r) := rfl

theorem exec_sti : exec (.sti r off) s = orFail (s.indirect off) (storeTo s r) := rfl

end

/-! ### The obligations -/

/-- Settles O21: the word has LD's fields with the offset extended, and the meaning is a load relative to the next
PC. -/
theorem loadDirect : Obligations.LoadDirect := by
  intro dr
  refine ⟨fun _ => decode_ldWord rfl, fun off s => ?meaning⟩
  rw [exec_ld]
  exact ⟨loadFrom_completes dr, loadFrom_fails dr⟩

/-- Settles O22: the word has LDI's fields with the offset extended; the pointer's read fails, or the meaning is a load
at the pointer. -/
theorem loadIndirect : Obligations.LoadIndirect := by
  intro dr
  refine ⟨fun _ => decode_ldiWord rfl, fun off s => ?meaning⟩
  rw [exec_ldi]
  refine ⟨fun pointer data => ?completes, orFail_indirect_outOfBounds off _, fun pointer outOfBounds =>
    (orFail_indirect_inBounds off _ pointer).trans (loadFrom_fails dr outOfBounds)⟩
  case completes =>
    rw [orFail_indirect_inBounds off _ pointer]
    exact loadFrom_completes dr data

/-- Settles O23: the word has LDR's fields with the offset extended, and the address of the load is computed from the
state before the register write. -/
theorem loadBaseOffset : Obligations.LoadBaseOffset := by
  intro dr base
  refine ⟨fun _ => decode_ldrWord rfl, fun off s => ?meaning⟩
  rw [exec_ldr]
  exact ⟨loadFrom_completes dr, loadFrom_fails dr⟩

/-- Settles O25: the word has ST's fields with the offset extended, and the meaning is a store relative to the next
PC. -/
theorem storeDirect : Obligations.StoreDirect := by
  intro sr
  refine ⟨fun _ => decode_stWord rfl, fun off s => ?meaning⟩
  rw [exec_st]
  exact ⟨storeTo_completes sr, storeTo_fails sr⟩

/-- Settles O26: the word has STI's fields with the offset extended; the pointer's read fails, or the meaning is a store
at the pointer. -/
theorem storeIndirect : Obligations.StoreIndirect := by
  intro sr
  refine ⟨fun _ => decode_stiWord rfl, fun off s => ?meaning⟩
  rw [exec_sti]
  refine ⟨fun pointer data => ?completes, orFail_indirect_outOfBounds off _, fun pointer outOfBounds =>
    (orFail_indirect_inBounds off _ pointer).trans (storeTo_fails sr outOfBounds)⟩
  case completes =>
    rw [orFail_indirect_inBounds off _ pointer]
    exact storeTo_completes sr data

/-- Settles O27: the word has STR's fields with the offset extended, and the meaning is a store at the base register
plus the offset. -/
theorem storeBaseOffset : Obligations.StoreBaseOffset := by
  intro sr base
  refine ⟨fun _ => decode_strWord rfl, fun off s => ?meaning⟩
  rw [exec_str]
  exact ⟨storeTo_completes sr, storeTo_fails sr⟩

/-- Settles O24: the word has LEA's fields with the offset extended, and the meaning is one register write, with no
access to memory. -/
theorem loadEffectiveAddress : Obligations.LoadEffectiveAddress := by
  intro dr
  refine ⟨fun _ => decode_leaWord rfl, fun off s => ?meaning⟩
  rw [exec_lea]
  exact operate_completes ..

end Sys2Proof.Machine
end

section
/-! PROOFS. The statements of the family 44_trap_and_reserved: TRAP dispatch (R170, R171), the table TRAP (R172), the
four built-in routines (R173 to R177) and the two illegal opcodes (R178, R179). -/

namespace Sys2Proof

/-! ### The words of TRAP and of the two illegal opcodes (R73, R78) -/

section
variable {w : Word}

theorem decode_trapWord {unused : BitVec 4} {v : TrapVector} (h : 0b1111#4 ++ unused ++ v = w) :
    decode w = decodeTrap v := by
  obtain ⟨high, rfl⟩ := append_eq_iff.mp h
  obtain ⟨op, -⟩ := extractLsb'_eq_append_iff.mp high
  exact decode_trap op

theorem decode_reservedWord {low : BitVec 12} (h : 0b1101#4 ++ low = w) : decode w = .reserved1101 := by
  obtain ⟨op, -⟩ := append_eq_iff.mp h
  exact decode_reserved1101 op

theorem decode_unassignedWord {low : BitVec 12} (h : 0b1000#4 ++ low = w) : decode w = .illegal1000 := by
  obtain ⟨op, -⟩ := append_eq_iff.mp h
  exact decode_illegal1000 op

end

end Sys2Proof

namespace Sys2Proof.Machine

/-! ### The default set of built-in vectors (R171) -/

section
variable {s : State} {i : Instr} {v : TrapVector}

/-- R170: a TRAP's routine is the one its vector is listed with. -/
theorem State.builtinOf_trap (hv : trapVectorOf i = some v) : s.builtinOf i = s.cfg.builtins.lookup v := by
  rw [State.builtinOf, hv, Option.bind_some]

/-- The vectors with a row of their own are the ones the default set lists. -/
theorem rowVectors_eq_default : rowVectors = Config.default.builtins.map Prod.fst := rfl

theorem lookup_default_of_no_row (h : rowVectors.contains v = false) : Config.default.builtins.lookup v = none := by
  rw [List.lookup_eq_none_iff]
  intro p listed
  have row : p.1 ∈ rowVectors := by
    rw [rowVectors_eq_default]
    exact List.mem_map_of_mem listed
  have noRow : v ∉ rowVectors := by simpa using h
  exact bne_iff_ne.mpr fun same => noRow (same ▸ row)

/-- R171: under the default set the four rows run their routines and the table form runs none. -/
theorem State.builtinOf_default (h : s.cfg.builtins = Config.default.builtins) :
    s.builtinOf .trapGetc = some .charIn ∧ s.builtinOf .trapOut = some .charOut ∧
      s.builtinOf .trapPuts = some .stringOut ∧ s.builtinOf .trapHalt = some .haltMachine ∧
      ∀ v, (Instr.trapTable v).wf = true → s.builtinOf (.trapTable v) = none := by
  have listed {i v} (hv : trapVectorOf i = some v) : s.builtinOf i = Config.default.builtins.lookup v := by
    rw [State.builtinOf_trap hv, h]
  refine ⟨(listed rfl).trans rfl, (listed rfl).trans rfl, (listed rfl).trans rfl, (listed rfl).trans rfl,
    fun v wf => (listed rfl).trans ?noRow⟩
  case noRow => exact lookup_default_of_no_row (by simpa only [Instr.wf, Bool.not_eq_true'] using wf)

end

/-! ### The table TRAP (R172) -/

section
variable {s : State} {i : Instr} {v : TrapVector}

/-- R56, R172: the address of an entry, summed modulo 65536. -/
theorem State.trapEntry_eq_ofNat : s.trapEntry v = BitVec.ofNat 16 (s.cfg.trapTableBase.toNat + v.toNat) := by
  rw [State.trapEntry, BitVec.ofNat_add, BitVec.ofNat_toNat, BitVec.ofNat_toNat, BitVec.setWidth_eq]

/-- R172: with its entry in bounds a table TRAP is a subroutine jump to the word there. -/
theorem exec_tableTrap_inBounds (hv : trapVectorOf i = some v) (table : s.builtinOf i = none)
    (inBounds : s.inBounds (s.trapEntry v)) :
    exec i s = .next (s.callTo (s.mem.read (s.trapEntry v).toNat)) := by
  obtain ⟨-, completes⟩ := (tableTrap_cases s v).resolve_right fun ⟨outOfBounds, _⟩ => outOfBounds inBounds
  rw [exec_tableTrap hv table, completes]

theorem exec_tableTrap_outOfBounds (hv : trapVectorOf i = some v) (table : s.builtinOf i = none)
    (outOfBounds : ¬ s.inBounds (s.trapEntry v)) :
    exec i s = .fault (.memoryAddressOutOfBounds (s.trapEntry v)) := by
  obtain ⟨-, fails⟩ := (tableTrap_cases s v).resolve_left fun ⟨inBounds, _⟩ => outOfBounds inBounds
  rw [exec_tableTrap hv table, fails]

end

/-! ### Character-in (R173) -/

section
variable {s : State} {i : Instr} {rest : InPort}

/-- R173: end of input is the policy's, once the port has moved on. -/
theorem exec_charIn_of_endOfInput (hi : s.builtinOf i = some .charIn) (h : s.inPort.readChar = .endOfInput rest) :
    exec i s = endOfInput (s.setPort rest) := by
  rw [exec_builtin hi, runBuiltin, charIn, h]

theorem exec_charIn_of_never (hi : s.builtinOf i = some .charIn) (h : s.inPort.readChar = .never) :
    exec i s = .fault .stuckNoInput := by
  rw [exec_builtin hi, runBuiltin, charIn, h]

theorem endOfInput_of_stuck (policy : s.cfg.eofPolicy = .stuck) : endOfInput s = .fault .stuckEndOfInput := by
  rw [endOfInput, policy]

theorem endOfInput_of_zero (policy : s.cfg.eofPolicy = .zero) : endOfInput s = .next (s.writeReg 0 0#16).retire := by
  rw [endOfInput, policy]

theorem endOfInput_of_halt (policy : s.cfg.eofPolicy = .halt) : endOfInput s = .next s.halt := by
  rw [endOfInput, policy]

/-- A zero-extended character is never negative. -/
theorem condOf_character_ne_n (c : Byte) : condOf (c.setWidth 16) ≠ .n := by
  obtain ⟨negative, -, -⟩ := condOf_is (c.setWidth 16)
  rw [Ne, negative, BitVec.msb_setWidth]
  simp

end

/-! ### String-out (R175) -/

section
variable {s : State} {a : Word}

/-- R57: a string's addresses repeat after 65536 words, so what holds of that many holds of all. -/
theorem forall_stringWord_of_lt_stringFuel
    (h : ∀ k < stringFuel, s.inBounds (a + BitVec.ofNat 16 k) ∧ s.stringWord a k ≠ 0#16) (k : Nat) :
    s.inBounds (a + BitVec.ofNat 16 k) ∧ s.stringWord a k ≠ 0#16 := by
  have wraps : BitVec.ofNat 16 (k % stringFuel) = BitVec.ofNat 16 k :=
    BitVec.eq_of_toNat_eq (by simp [stringFuel])
  have reached := h (k % stringFuel) (Nat.mod_lt k (by decide))
  rwa [State.stringWord, wraps] at reached

/-- R175: up to the first zero word every address is in bounds, or the first address out of bounds comes before any
zero word, or neither is ever met. -/
theorem stringOut_string_cases (s : State) : let a := s.readReg 0
    (∃ m, (∀ k ≤ m, s.inBounds (a + BitVec.ofNat 16 k)) ∧ (∀ k < m, s.stringWord a k ≠ 0#16) ∧
        s.stringWord a m = 0#16 ∧ stringOut s = .next
          (s.emit (.string ((List.range m).map fun k => BitVec.ofNat 8 (s.stringWord a k).toNat))).retire) ∨
      (∃ m, (∀ k < m, s.inBounds (a + BitVec.ofNat 16 k) ∧ s.stringWord a k ≠ 0#16) ∧
        ¬ s.inBounds (a + BitVec.ofNat 16 m) ∧
        stringOut s = .fault (.memoryAddressOutOfBounds (a + BitVec.ofNat 16 m))) ∨
      ((∀ k, s.inBounds (a + BitVec.ofNat 16 k) ∧ s.stringWord a k ≠ 0#16) ∧
        stringOut s = .fault .stuckStringOut) := by
  obtain ⟨m, -, inBounds, nonzero, zero, ends⟩ | ⟨m, -, before, outOfBounds, fails⟩ | ⟨all, unended⟩ :=
    s.readString_cases stringFuel (s.readReg 0)
  · exact .inl ⟨m, inBounds, nonzero, zero, by rw [stringOut, ends]; rfl⟩
  · exact .inr (.inl ⟨m, before, outOfBounds, by rw [stringOut, fails]⟩)
  · exact .inr (.inr ⟨forall_stringWord_of_lt_stringFuel all, by rw [stringOut, unended]⟩)

/-- R175: a zero word with every address up to it in bounds ends the string, there or at an earlier zero word. -/
theorem stringOut_of_zero_word {n : Nat} (inBounds : ∀ k ≤ n, s.inBounds (s.readReg 0 + BitVec.ofNat 16 k))
    (zero : s.stringWord (s.readReg 0) n = 0#16) :
    ∃ m ≤ n, s.stringWord (s.readReg 0) m = 0#16 ∧ stringOut s = .next (s.emit (.string
      ((List.range m).map fun k => BitVec.ofNat 8 (s.stringWord (s.readReg 0) k).toNat))).retire := by
  obtain ⟨m, -, nonzero, ends, completes⟩ | ⟨m, before, outOfBounds, -⟩ | ⟨all, -⟩ := stringOut_string_cases s
  · exact ⟨m, Nat.le_of_not_lt fun later => nonzero n later zero, ends, completes⟩
  · obtain later | reached := Nat.lt_or_ge n m
    · exact absurd zero (before n later).2
    · exact absurd (inBounds m reached) outOfBounds
  · exact absurd zero (all n).2

/-- R175: an address out of bounds with no zero word before it fails the step. -/
theorem stringOut_of_outOfBounds {n : Nat}
    (before : ∀ k < n, s.inBounds (s.readReg 0 + BitVec.ofNat 16 k) ∧ s.stringWord (s.readReg 0) k ≠ 0#16)
    (outOfBounds : ¬ s.inBounds (s.readReg 0 + BitVec.ofNat 16 n)) :
    stringOut s = .fault (.memoryAddressOutOfBounds (s.readReg 0 + BitVec.ofNat 16 n)) := by
  obtain ⟨m, inBounds, -, ends, -⟩ | ⟨m, earlier, first, fails⟩ | ⟨all, -⟩ := stringOut_string_cases s
  · obtain later | reached := Nat.lt_or_ge m n
    · exact absurd ends (before m later).2
    · exact absurd (inBounds n reached) outOfBounds
  · obtain rfl : m = n := Nat.le_antisymm (Nat.le_of_not_lt fun later => outOfBounds (earlier n later).1)
      (Nat.le_of_not_lt fun later => first (before m later).1)
    exact fails
  · exact absurd (all n).1 outOfBounds

/-- R175, R230 (a): with no zero word and no address out of bounds in the whole address space the step never ends. -/
theorem stringOut_of_endless (all : ∀ b : Word, s.inBounds b ∧ s.mem.read b.toNat ≠ 0#16) :
    stringOut s = .fault .stuckStringOut := by
  obtain ⟨m, -, -, ends, -⟩ | ⟨m, -, outOfBounds, -⟩ | ⟨-, never⟩ := stringOut_string_cases s
  · exact absurd ends (all _).2
  · exact absurd (all _).1 outOfBounds
  · exact never

end

/-! ### The trap vector table elsewhere (R177)

`moveTrapTable` commutes with every operation of the built-in routines. -/

section
variable (s : State) (base : Word)

@[simp] theorem State.moveTrapTable_eofPolicy : (s.moveTrapTable base).cfg.eofPolicy = s.cfg.eofPolicy := rfl
@[simp] theorem State.moveTrapTable_inPort : (s.moveTrapTable base).inPort = s.inPort := rfl
@[simp] theorem State.readReg_moveTrapTable (r : RegAddr) : (s.moveTrapTable base).readReg r = s.readReg r := rfl
theorem State.memRead_moveTrapTable (a : Word) : (s.moveTrapTable base).memRead a = s.memRead a := rfl
@[simp] theorem State.writeReg_moveTrapTable (r : RegAddr) (v : Word) :
    (s.moveTrapTable base).writeReg r v = (s.writeReg r v).moveTrapTable base := rfl
@[simp] theorem State.setPort_moveTrapTable (port : InPort) :
    (s.moveTrapTable base).setPort port = (s.setPort port).moveTrapTable base := rfl
@[simp] theorem State.emit_moveTrapTable (w : PortWrite) :
    (s.moveTrapTable base).emit w = (s.emit w).moveTrapTable base := rfl
@[simp] theorem State.retire_moveTrapTable : (s.moveTrapTable base).retire = s.retire.moveTrapTable base := rfl
@[simp] theorem State.halt_moveTrapTable : (s.moveTrapTable base).halt = s.halt.moveTrapTable base := rfl
theorem State.builtinOf_moveTrapTable (i : Instr) : (s.moveTrapTable base).builtinOf i = s.builtinOf i := rfl

@[simp] theorem State.readString_moveTrapTable (fuel : Nat) (a : Word) :
    (s.moveTrapTable base).readString fuel a = s.readString fuel a := by
  induction fuel generalizing a with
  | zero => rfl
  | succ fuel ih => simp only [State.readString, State.memRead_moveTrapTable, ih]

theorem endOfInput_moveTrapTable :
    endOfInput (s.moveTrapTable base) = mapNext (fun t => t.moveTrapTable base) (endOfInput s) := by
  cases policy : s.cfg.eofPolicy <;> simp [endOfInput, policy]

theorem charIn_moveTrapTable :
    charIn (s.moveTrapTable base) = mapNext (fun t => t.moveTrapTable base) (charIn s) := by
  cases answer : s.inPort.readChar <;> simp [charIn, answer, endOfInput_moveTrapTable]

theorem stringOut_moveTrapTable :
    stringOut (s.moveTrapTable base) = mapNext (fun t => t.moveTrapTable base) (stringOut s) := by
  cases string : s.readString stringFuel (s.readReg 0) <;> simp [stringOut, string]

/-- R177: no built-in routine reads the trap vector table. -/
theorem runBuiltin_moveTrapTable (b : Builtin) :
    runBuiltin b (s.moveTrapTable base) = mapNext (fun t => t.moveTrapTable base) (runBuiltin b s) := by
  cases b with
  | charIn => exact charIn_moveTrapTable s base
  | charOut => rfl
  | stringOut => exact stringOut_moveTrapTable s base
  | haltMachine => rfl

end

/-- R177: a built-in TRAP that completes goes on at the next word and changes no register but R0 and no memory. -/
theorem exec_builtin_frame {i : Instr} {s t : State} {b : Builtin} (hb : s.builtinOf i = some b)
    (h : exec i s = .next t) : t.pc = s.pc + 1#16 ∧ (∀ q, q ≠ 0 → t.readReg q = s.readReg q) ∧ t.mem = s.mem := by
  obtain ⟨v, hv, -⟩ := Option.bind_eq_some_iff.mp hb
  obtain ⟨table, -⟩ | ⟨-, -, port, x, rfl⟩ | ⟨-, _, rfl⟩ | ⟨-, _, rfl⟩ | ⟨-, _, -, rfl⟩ := exec_trap_cases hv h
  · cases table.symm.trans hb
  · exact ⟨rfl, fun q hq => ((s.setPort port).readReg_writeReg 0 q x).trans (if_neg hq), rfl⟩
  · exact ⟨rfl, fun _ _ => rfl, rfl⟩
  · exact ⟨rfl, fun _ _ => rfl, rfl⟩
  · exact ⟨rfl, fun _ _ => rfl, rfl⟩

/-! ### The obligations -/

/-- Settles O28: the decoder reads the vector from bits 7:0 alone, and the default set lists the vectors of the four
rows. -/
theorem trapDispatchesOnVector : Obligations.TrapDispatchesOnVector := by
  refine ⟨fun unused v => ?vector, fun _ _ _ => exec_builtin, fun _ _ _ => exec_tableTrap,
    fun _ => State.builtinOf_default⟩
  case vector => rw [decode_trapWord rfl, trapVectorOf_decodeTrap]

/-- Settles O29: the meaning is a subroutine jump to the entry, or the failed read of the entry, which comes before the
link. -/
theorem tableTrapLinksAndJumps : Obligations.TableTrapLinksAndJumps := by
  intro i v s hv table
  rw [← State.trapEntry_eq_ofNat]
  exact ⟨fun inBounds => call_completes (exec_tableTrap_inBounds hv table inBounds),
    exec_tableTrap_outOfBounds hv table⟩

/-- Settles O30: a character and the policy's zero are register writes from the state whose port has moved on, the
policy's halt is that state halted, and the rest give no step. -/
theorem characterInReadsPort : Obligations.CharacterInReadsPort := by
  intro i s hi
  refine ⟨fun c rest answer => ?character, fun rest answer policy => ?stuck, fun rest answer policy => ?zero,
    fun rest answer policy => ?halt, exec_charIn_of_never hi⟩
  case character =>
    rw [BitVec.ofNat_toNat]
    exact ⟨_, exec_charIn_of_readChar hi answer, (s.setPort rest).writeReg_wrote 0 _, condOf_character_ne_n c, rfl,
      fun _ => rfl, ⟨rfl, rfl⟩, rfl, rfl⟩
  case stuck => exact (exec_charIn_of_endOfInput hi answer).trans (endOfInput_of_stuck policy)
  case zero =>
    exact ⟨_, (exec_charIn_of_endOfInput hi answer).trans (endOfInput_of_zero policy),
      (s.setPort rest).writeReg_wrote 0 0#16, rfl, rfl, fun _ => rfl, ⟨rfl, rfl⟩, rfl, rfl⟩
  case halt =>
    exact ⟨_, (exec_charIn_of_endOfInput hi answer).trans (endOfInput_of_halt policy), rfl, rfl, ⟨fun _ => rfl, rfl⟩,
      fun _ => rfl, rfl, rfl, rfl⟩

/-- Settles O32: each row's routine under the default set, run from a state where it completes. -/
theorem trapRowsCompleteByDefault : Obligations.TrapRowsCompleteByDefault := by
  intro s defaults
  obtain ⟨getc, out, puts, halt, table⟩ := State.builtinOf_default defaults
  refine ⟨fun c rest answer => ?getc, ⟨_, exec_builtin out, rfl, rfl⟩, fun n inBounds zero => ?puts,
    ⟨_, exec_builtin halt, rfl, rfl⟩, fun v wf inBounds => ?table⟩
  case getc => exact ⟨_, exec_charIn_of_readChar getc answer, (s.setPort rest).readReg_writeReg 0 0 _, rfl⟩
  case puts =>
    obtain ⟨m, reached, -, completes⟩ := stringOut_of_zero_word inBounds zero
    exact ⟨_, _, (exec_builtin puts).trans completes, rfl, by simpa using reached, rfl⟩
  case table =>
    exact ⟨_, exec_tableTrap_inBounds rfl (table v wf) inBounds, s.readReg_callTo _ linkReg, rfl⟩

/-- Settles O34: the three ways a string can go, where the first zero word is the one the statement names. -/
theorem stringOutEmitsWholeString : Obligations.StringOutEmitsWholeString := by
  intro i s hi
  rw [exec_builtin hi]
  refine ⟨fun n inBounds nonzero zero => ?ends, fun _ => stringOut_of_outOfBounds,
    stringOut_of_endless⟩
  case ends =>
    obtain ⟨m, reached, ends, completes⟩ := stringOut_of_zero_word inBounds zero
    obtain rfl : m = n := Nat.le_antisymm reached (Nat.le_of_not_lt fun earlier => nonzero m earlier ends)
    exact ⟨_, completes, rfl, rfl, ⟨fun _ => rfl, rfl⟩, fun _ => rfl, ⟨rfl, rfl⟩, rfl⟩

/-- Settles O36: `exec_builtin_frame`, where R7 is a register other than R0, and `runBuiltin_moveTrapTable`. -/
theorem builtinTrapsNeverLink : Obligations.BuiltinTrapsNeverLink := by
  intro i s b hb
  refine ⟨fun t h => ?frame, fun base => ?elsewhere⟩
  case frame =>
    obtain ⟨pc, others, mem⟩ := exec_builtin_frame hb h
    exact ⟨pc, others linkReg (by decide), others, fun k => congrArg (Memory.readByte · k) mem⟩
  case elsewhere =>
    rw [exec_builtin hb, exec_builtin ((s.builtinOf_moveTrapTable base i).trans hb), runBuiltin_moveTrapTable]

/-- Settles O33: character-out emits and retires. -/
theorem characterOutEmitsLowByte : Obligations.CharacterOutEmitsLowByte :=
  fun _ _ hi => ⟨_, exec_builtin hi, rfl, rfl, ⟨fun _ => rfl, rfl⟩, fun _ => rfl, ⟨rfl, rfl⟩, rfl⟩

/-- Settles O35: the routine is `State.halt`, which retires with the latch set, and the report reads the latch. -/
theorem haltTrapSetsLatch : Obligations.HaltTrapSetsLatch := by
  intro i s hi
  have halts : exec i s = .next s.halt := exec_builtin hi
  exact ⟨_, halts, rfl, by rw [halts]; rfl, rfl, ⟨fun _ => rfl, rfl⟩, fun _ => rfl, rfl, rfl, rfl⟩

/-- Settles O37: the opcode alone decides the row, and its meaning is the failure. -/
theorem reservedOpcodeFails : Obligations.ReservedOpcodeFails :=
  ⟨fun _ => decode_reservedWord rfl, fun _ => ⟨rfl, rfl⟩⟩

/-- Settles O38: the opcode alone decides the row, and its meaning is the failure. -/
theorem unassignedOpcodeFails : Obligations.UnassignedOpcodeFails :=
  ⟨fun _ => decode_unassignedWord rfl, fun _ => ⟨rfl, rfl⟩⟩

end Sys2Proof.Machine
end

section
/-! PROOFS. The statements of the family 60_exceptions: how a step can stop (R190 to R193), the order of its checks
(R197) and the codes it is reported with (R117, R195). -/

namespace Sys2Proof.Machine

/-! ### Every way a step can stop (R190, R192) -/

/-- A step that stops was not halted, and its fetch failed out of bounds or the fetched instruction stopped. -/
theorem step_fault_cases {s : State} {f : Fault} (h : step s = .fault f) :
    s.halted = false ∧ ((f = .memoryAddressOutOfBounds s.pc ∧ ¬ s.inBounds s.pc) ∨
      ∃ i, s.fetch = .ok i ∧ exec i s = .fault f) := by
  cases halted : s.halted with
  | true => cases h.symm.trans (step_halted halted)
  | false =>
    refine ⟨rfl, ?_⟩
    by_cases inBounds : s.inBounds s.pc
    · exact .inr ⟨_, by rw [State.fetch, State.memRead_ok inBounds], (step_inBounds halted inBounds).symm.trans h⟩
    · exact .inl ⟨Host.Outcome.fault.inj (h.symm.trans (step_outOfBounds halted inBounds)), inBounds⟩

theorem step_not_refused (s : State) (r : Refusal) : step s ≠ .refused r := by
  intro h
  cases halted : s.halted with
  | true => cases h.symm.trans (step_halted halted)
  | false =>
    by_cases inBounds : s.inBounds s.pc
    · exact exec_not_refused _ s r ((step_inBounds halted inBounds).symm.trans h)
    · cases h.symm.trans (step_outOfBounds halted inBounds)

/-- Settles O43: a failed fetch is out of bounds, and the fetched instruction stops in the ways of `exec_fault_cases`. -/
theorem stepStopsAreClosed : Obligations.StepStopsAreClosed := by
  intro s
  refine ⟨step_not_refused s, fun f h => ?_⟩
  obtain ⟨halted, cause⟩ := step_fault_cases h
  refine ⟨halted, ?_⟩
  obtain ⟨rfl, outOfBounds⟩ | ⟨i, fetched, stops⟩ := cause
  · exact .inr (.inl ⟨s.pc, rfl, outOfBounds⟩)
  · obtain ⟨rfl, illegal⟩ | ⟨a, rfl, outOfBounds, -⟩ | ⟨routine, stuck⟩ | ⟨routine, rfl⟩ := exec_fault_cases stops
    · exact .inl ⟨rfl, i, fetched, illegal⟩
    · exact .inr (.inl ⟨a, rfl, outOfBounds⟩)
    · have endless : f.isFailure = false := by obtain rfl | rfl := stuck <;> rfl
      exact .inr (.inr ⟨endless, i, fetched, .inl ⟨routine, stuck⟩⟩)
    · exact .inr (.inr ⟨rfl, i, fetched, .inr ⟨routine, rfl⟩⟩)

/-- R190: of the three failures a step can have two. -/
theorem step_failure_cases {s : State} {f : Fault} (h : step s = .fault f) (failure : f.isFailure = true) :
    f = .illegalOpcode ∨ ∃ a, f = .memoryAddressOutOfBounds a := by
  obtain ⟨-, ⟨illegal, -⟩ | ⟨a, outOfBounds, -⟩ | ⟨endless, -⟩⟩ := (stepStopsAreClosed s).2 f h
  · exact .inl illegal
  · exact .inr ⟨a, outOfBounds⟩
  · cases failure.symm.trans endless

/-- R192: an out-of-bounds failure of a step is its fetch's, or the fetched instruction accesses memory. -/
theorem step_outOfBounds_source {s : State} {a : Word} (h : step s = .fault (.memoryAddressOutOfBounds a)) :
    ¬ s.inBounds a ∧ (a = s.pc ∨ ∃ i, s.fetch = .ok i ∧ s.accessesMemory i = true) := by
  obtain ⟨-, ⟨⟨⟩, outOfBounds⟩ | ⟨i, fetched, stops⟩⟩ := step_fault_cases h
  · exact ⟨outOfBounds, .inl rfl⟩
  · obtain ⟨illegal, -⟩ | ⟨_, ⟨⟩, outOfBounds, accesses⟩ | ⟨-, atEnd | noInput⟩ | ⟨-, noZero⟩ :=
      exec_fault_cases stops
    · cases illegal
    · exact ⟨outOfBounds, .inr ⟨i, fetched, accesses⟩⟩
    · cases atEnd
    · cases noInput
    · cases noZero

/-- Settles O44: the source of the failure is `step_outOfBounds_source`; every address is below 65536, so a memory of
that size has none out of bounds. -/
theorem outOfBoundsComesFromAccess : Obligations.OutOfBoundsComesFromAccess := by
  intro s a h
  obtain ⟨outOfBounds, source⟩ := step_outOfBounds_source h
  have above : s.cfg.memSize ≤ a.toNat := Nat.le_of_not_lt outOfBounds
  have below : a.toNat < 65536 := a.isLt
  exact ⟨above, (above.trans_lt below).ne, congrArg Prod.snd (State.stepRequest_of_fault h), source⟩

/-! ### Register addresses (R22, R193) -/

/-- Settles O45: construction is the bound's test, and `step_failure_cases` leaves no step that fails so. -/
theorem invalidRegisterAddressUnreachable : Obligations.InvalidRegisterAddressUnreachable := by
  refine ⟨fun v small => ⟨⟨v, small⟩, dif_pos small, rfl⟩, fun v large => dif_neg (Nat.not_lt.mpr large),
    fun s v h => ?unreachable⟩
  case unreachable =>
    obtain illegal | ⟨a, outOfBounds⟩ := step_failure_cases h rfl
    · cases illegal
    · cases outOfBounds

/-! ### The order of the checks (R197) -/

theorem exec_illegal {i : Instr} (illegal : i.isIllegal = true) (s : State) : exec i s = .fault .illegalOpcode := by
  obtain rfl | rfl := isIllegal_iff.mp illegal <;> rfl

/-- Settles O46: a step tests the latch, then the PC, then runs the instruction, and an illegal one fails in every state;
LDI and STI end at their first access when that is out of bounds. -/
theorem checksHappenInOrder : Obligations.ChecksHappenInOrder := by
  intro s
  refine ⟨fun halted => ?latch, step_outOfBounds, fun running inBounds illegal =>
    (step_inBounds running inBounds).trans (exec_illegal illegal s), fun r off outOfBounds =>
    ⟨(exec_ldi r off).trans (orFail_indirect_outOfBounds off _ outOfBounds),
      (exec_sti r off).trans (orFail_indirect_outOfBounds off _ outOfBounds)⟩⟩
  case latch => simp [step_halted halted, outcomeOf, halted]

/-! ### The codes of a report (R117, R195) -/

/-- Everything a step request can be answered with. -/
theorem State.stepRequest_cases {s t : State} {o : StepOutcome} (h : s.stepRequest = (some o, t)) :
    o = .continued ∨ o = .halted ∨ o = .failed .illegalOpcode ∨ ∃ a, o = .failed (.memoryAddressOutOfBounds a) := by
  cases o with
  | continued => exact .inl rfl
  | halted => exact .inr (.inl rfl)
  | failed f =>
    obtain ⟨-, -, fault, failure⟩ := failedStepChangesNothing s t f h
    obtain rfl | ⟨a, rfl⟩ := step_failure_cases fault failure
    · exact .inr (.inr (.inl rfl))
    · exact .inr (.inr (.inr ⟨a, rfl⟩))

/-- Settles O47: the answers to a completed and to a failed step, the codes by their definition, and the codes of the
four answers of `State.stepRequest_cases`. -/
theorem reportedCodesAreTheListedOnes : Obligations.ReportedCodesAreTheListedOnes := by
  refine ⟨fun _ _ => State.stepRequest_of_next, fun s f h failure => ?failed, ⟨rfl, rfl, fun _ => rfl⟩, rfl,
    fun _ => ⟨rfl, rfl⟩, fun _ => ⟨rfl, rfl⟩, fun s t o h => ?produced⟩
  case failed => rw [State.stepRequest_of_fault h, outcomeOf_eq_failed_iff.mpr ⟨rfl, failure⟩]
  case produced =>
    obtain rfl | rfl | rfl | ⟨a, rfl⟩ := State.stepRequest_cases h <;>
      simp [StepOutcome.code, StepOutcome.causeCode]

end Sys2Proof.Machine
end
